-- ==== Sys2Proof/Word.lean ====
section
/-!
DEFINITION. The data of the block: bytes, and byte sequences of length at least one.
-/

namespace Sys2Proof

/-- R11: an input or output byte, a value 0 to 255. -/
abbrev Byte := BitVec 8

/-- R14: a byte sequence of length at least 1, the only kind a dictionary slot or `prev` ever holds.
The first byte is a field of its own, so that `first(s)` is total. -/
structure ByteSeq where
  first : Byte
  rest : List Byte
deriving DecidableEq, Repr

/-- R14: the one-byte sequence `[b]`. -/
def ByteSeq.single (b : Byte) : ByteSeq := ⟨b, []⟩

/-- R14, R183: `s ++ [b]`. -/
def ByteSeq.snoc (s : ByteSeq) (b : Byte) : ByteSeq := ⟨s.first, s.rest ++ [b]⟩

/-- R201: the bytes of a sequence, first byte first. -/
def ByteSeq.toList (s : ByteSeq) : List Byte := s.first :: s.rest

/-- R14: `len(s)`. -/
def ByteSeq.length (s : ByteSeq) : Nat := s.rest.length + 1

end Sys2Proof
end

