-- ==== Sys2Proof/Config.lean ====
section
/-!
DEFINITION. The numbers rule R7 fixes. The block has no free value (R3: "No rule in this spec draws a free value"), so nothing
here is opaque. `ADDR_W` (R8) is taken as unbounded: see notes/assumptions/8.md.
-/

namespace Sys2Proof.Config

/-- R7 `W_MIN`: the smallest code width, and the width after every reset. -/
@[simp] abbrev wMin : Nat := 9

/-- R7 `W_MAX`: the largest code width. -/
@[simp] abbrev wMax : Nat := 12

/-- R7 `CODE_MAX`: the largest code value and the largest dictionary index. -/
@[simp] abbrev codeMax : Nat := 4095

/-- R7 `N_LITERAL`: codes below this one are literal one-byte entries. -/
@[simp] abbrev nLiteral : Nat := 256

/-- R7 `CLEAR`: the clear code. -/
@[simp] abbrev clearCode : Nat := 256

/-- R7 `END`: the end-of-information code. -/
@[simp] abbrev endCode : Nat := 257

/-- R7 `FIRST_FREE`: the first dynamically assigned code. -/
@[simp] abbrev firstFree : Nat := 258

/-- R7 `MAXCODE_RESET`: the value of `maxCode` after every reset. -/
@[simp] abbrev maxCodeReset : Nat := 257

end Sys2Proof.Config
end

