-- ==== Sys2Proof/Syntax.lean ====
section
/-!
DEFINITION. The instructions: one constructor per row of spec/opcode_table.json, that is one per code class per format (R104).
The end-of-input sentinel `EOF` has no encoding and no row (R101): it is no instruction, and the sequencer handles it.
-/

namespace Sys2Proof

/-- R90: the four code formats, one per code width. -/
inductive Format where
  | c9 | c10 | c11 | c12
deriving DecidableEq, Repr

/-- R105: the eight classes of code that have a row in the opcode table. -/
inductive CodeClass where
  | clear | endOfInfo | first | badFirst | lit | ref | defer | bad
deriving DecidableEq, Repr

/-- R104: the 26 rows of the opcode table. A literal row carries the eight bits its encoding leaves open, a dynamic row the whole
`code` field of its format (R91). -/
inductive Instr where
  /-- R143 `CLEAR`, code 256, read at 9 bits. -/
  | clearC9
  /-- R148 `END`, code 257, read at 9 bits. -/
  | endC9
  /-- R146 `FIRST`: a literal code in state NOPREV. -/
  | firstC9 (b : Byte)
  /-- R147 `BADFIRST`: a code of 258 or more in state NOPREV. -/
  | badFirstC9 (code : BitVec 9)
  /-- R171 `LIT`: a literal code in state HASPREV, read at 9 bits. -/
  | litC9 (b : Byte)
  /-- R172 `REF`: a dynamic code present in the dictionary, read at 9 bits. -/
  | refC9 (code : BitVec 9)
  /-- R173 `DEFER`: the code `maxCode + 1`, read at 9 bits. -/
  | deferC9 (code : BitVec 9)
  /-- R174 `BAD`: a code above `maxCode + 1`, read at 9 bits. -/
  | badC9 (code : BitVec 9)
  /-- R143 `CLEAR`, code 256, read at 10 bits. -/
  | clearC10
  /-- R148 `END`, code 257, read at 10 bits. -/
  | endC10
  /-- R171 `LIT`: a literal code in state HASPREV, read at 10 bits. -/
  | litC10 (b : Byte)
  /-- R172 `REF`: a dynamic code present in the dictionary, read at 10 bits. -/
  | refC10 (code : BitVec 10)
  /-- R173 `DEFER`: the code `maxCode + 1`, read at 10 bits. -/
  | deferC10 (code : BitVec 10)
  /-- R174 `BAD`: a code above `maxCode + 1`, read at 10 bits. -/
  | badC10 (code : BitVec 10)
  /-- R143 `CLEAR`, code 256, read at 11 bits. -/
  | clearC11
  /-- R148 `END`, code 257, read at 11 bits. -/
  | endC11
  /-- R171 `LIT`: a literal code in state HASPREV, read at 11 bits. -/
  | litC11 (b : Byte)
  /-- R172 `REF`: a dynamic code present in the dictionary, read at 11 bits. -/
  | refC11 (code : BitVec 11)
  /-- R173 `DEFER`: the code `maxCode + 1`, read at 11 bits. -/
  | deferC11 (code : BitVec 11)
  /-- R174 `BAD`: a code above `maxCode + 1`, read at 11 bits. -/
  | badC11 (code : BitVec 11)
  /-- R143 `CLEAR`, code 256, read at 12 bits. -/
  | clearC12
  /-- R148 `END`, code 257, read at 12 bits. -/
  | endC12
  /-- R171 `LIT`: a literal code in state HASPREV, read at 12 bits. -/
  | litC12 (b : Byte)
  /-- R172 `REF`: a dynamic code present in the dictionary, read at 12 bits. -/
  | refC12 (code : BitVec 12)
  /-- R173 `DEFER`: the code `maxCode + 1`, read at 12 bits. -/
  | deferC12 (code : BitVec 12)
  /-- R174 `BAD`: a code above `maxCode + 1`, read at 12 bits. -/
  | badC12 (code : BitVec 12)
deriving DecidableEq, Repr

end Sys2Proof
end

