-- ==== Sys2Proof/WellFormed.lean ====
section
/-!
DEFINITION. Which terms of `Instr` are instructions of the block. The operand types already hold a code within its format's field
(R91); what is left to check is that a dynamic row's code is none of the values the rows before it take.
-/

namespace Sys2Proof

/-- R95, R104: a dynamic row covers the values from 258 up to the largest of its format. -/
def dynamicCode (code : Nat) : Bool := decide (Config.firstFree ≤ code)

/-- R104: an instruction is well formed when its operand lies in the range its row covers. -/
def Instr.wf : Instr → Bool
  | .clearC9 => true
  | .endC9 => true
  | .firstC9 _ => true
  | .badFirstC9 code => dynamicCode code.toNat
  | .litC9 _ => true
  | .refC9 code => dynamicCode code.toNat
  | .deferC9 code => dynamicCode code.toNat
  | .badC9 code => dynamicCode code.toNat
  | .clearC10 => true
  | .endC10 => true
  | .litC10 _ => true
  | .refC10 code => dynamicCode code.toNat
  | .deferC10 code => dynamicCode code.toNat
  | .badC10 code => dynamicCode code.toNat
  | .clearC11 => true
  | .endC11 => true
  | .litC11 _ => true
  | .refC11 code => dynamicCode code.toNat
  | .deferC11 code => dynamicCode code.toNat
  | .badC11 code => dynamicCode code.toNat
  | .clearC12 => true
  | .endC12 => true
  | .litC12 _ => true
  | .refC12 code => dynamicCode code.toNat
  | .deferC12 code => dynamicCode code.toNat
  | .badC12 code => dynamicCode code.toNat

end Sys2Proof
end

