-- ==== Sys2Proof/Decode.lean ====
section
/-!
DEFINITION. Decoding (R92, R95 to R97, R104, R142) and, after it, the encoder written from the same tables.
A code has no meaning by its bits alone: its length is the decoder's own `width` (R93), and above 257 its class depends on `maxCode`
and on whether a previous sequence is held. So decoding takes a `DecodeCtx`.
-/

namespace Sys2Proof

/-- R93, R96, R97: the decoder state that a code's class depends on. -/
structure DecodeCtx where
  width : Nat
  maxCode : Nat
  held : Bool
deriving DecidableEq, Repr

/-- Why the decoder gives no instruction. -/
inductive DecodeError where
  /-- R122: fewer bits than the width remain. -/
  | tooShort
  /-- R127: a width outside 9 to 12. -/
  | widthOutOfRange
  /-- R103: no row has this class at this format (`FIRST` and `BADFIRST` above 9 bits). -/
  | noRow
deriving DecidableEq, Repr

/-- What the decoder answers: an instruction, or the name of the reason why not. -/
inductive Decoded where
  | ok (i : Instr)
  | reject (e : DecodeError)
deriving DecidableEq, Repr

/-- R90: the length of a code of a format. -/
def Format.bits : Format → Nat
  | .c9 => 9
  | .c10 => 10
  | .c11 => 11
  | .c12 => 12

/-- R90, R93: the format a width selects. -/
def Format.ofWidth (w : Nat) : Option Format :=
  if w = 9 then some .c9
  else if w = 10 then some .c10
  else if w = 11 then some .c11
  else if w = 12 then some .c12
  else none

/-- R92: the value of the `n` stream bits from bit `p`, the first one the most significant. `none` when one of them is not there. -/
def assemble (bit : Nat → Option Bool) (p : Nat) : Nat → Option Nat
  | 0 => some 0
  | n + 1 =>
    match assemble bit p n, bit (p + n) with
    | some v, some b => some (2 * v + b.toNat)
    | _, _ => none

/-- R12, R13: bit `j` of a byte counted from its most significant bit, for `j` below 8. -/
def byteBit (b : Byte) (j : Nat) : Bool := b.getLsbD (7 - j)

/-- R13: stream bit `i` of a list of bytes. -/
def listBit (bs : List Byte) (i : Nat) : Option Bool := (bs[i / 8]?).map (byteBit · (i % 8))

/-- R96, R97, in the order of tests of R142: the class of a code value. -/
def classOf (ctx : DecodeCtx) (v : Nat) : CodeClass :=
  if v = Config.endCode then .endOfInfo
  else if v = Config.clearCode then .clear
  else if ctx.held then
    if v < Config.nLiteral then .lit
    else if v ≤ ctx.maxCode then .ref
    else if v = ctx.maxCode + 1 then .defer
    else .bad
  else if v < Config.nLiteral then .first
  else .badFirst

/-- R104: the row of the opcode table for a class at a format, with its operand. -/
def rowOf (f : Format) (c : CodeClass) (v : Nat) : Decoded :=
  match f, c with
  | .c9, .clear => .ok .clearC9
  | .c9, .endOfInfo => .ok .endC9
  | .c9, .first => .ok (.firstC9 (BitVec.ofNat 8 v))
  | .c9, .badFirst => .ok (.badFirstC9 (BitVec.ofNat 9 v))
  | .c9, .lit => .ok (.litC9 (BitVec.ofNat 8 v))
  | .c9, .ref => .ok (.refC9 (BitVec.ofNat 9 v))
  | .c9, .defer => .ok (.deferC9 (BitVec.ofNat 9 v))
  | .c9, .bad => .ok (.badC9 (BitVec.ofNat 9 v))
  | .c10, .clear => .ok .clearC10
  | .c10, .endOfInfo => .ok .endC10
  | .c10, .first => .reject .noRow
  | .c10, .badFirst => .reject .noRow
  | .c10, .lit => .ok (.litC10 (BitVec.ofNat 8 v))
  | .c10, .ref => .ok (.refC10 (BitVec.ofNat 10 v))
  | .c10, .defer => .ok (.deferC10 (BitVec.ofNat 10 v))
  | .c10, .bad => .ok (.badC10 (BitVec.ofNat 10 v))
  | .c11, .clear => .ok .clearC11
  | .c11, .endOfInfo => .ok .endC11
  | .c11, .first => .reject .noRow
  | .c11, .badFirst => .reject .noRow
  | .c11, .lit => .ok (.litC11 (BitVec.ofNat 8 v))
  | .c11, .ref => .ok (.refC11 (BitVec.ofNat 11 v))
  | .c11, .defer => .ok (.deferC11 (BitVec.ofNat 11 v))
  | .c11, .bad => .ok (.badC11 (BitVec.ofNat 11 v))
  | .c12, .clear => .ok .clearC12
  | .c12, .endOfInfo => .ok .endC12
  | .c12, .first => .reject .noRow
  | .c12, .badFirst => .reject .noRow
  | .c12, .lit => .ok (.litC12 (BitVec.ofNat 8 v))
  | .c12, .ref => .ok (.refC12 (BitVec.ofNat 12 v))
  | .c12, .defer => .ok (.deferC12 (BitVec.ofNat 12 v))
  | .c12, .bad => .ok (.badC12 (BitVec.ofNat 12 v))

/-- R96, R97: the instruction a code value is, in a decoder state. -/
def decode (ctx : DecodeCtx) (v : Nat) : Decoded :=
  match Format.ofWidth ctx.width with
  | none => .reject .widthOutOfRange
  | some f => rowOf f (classOf ctx v) v

/-- R92, R96, R97: the instruction at the front of a list of bytes, in a decoder state. Total on any bytes. -/
def decodeBytes (ctx : DecodeCtx) (bs : List Byte) : Decoded :=
  match Format.ofWidth ctx.width with
  | none => .reject .widthOutOfRange
  | some f =>
    match assemble (listBit bs) 0 f.bits with
    | none => .reject .tooShort
    | some v => decode ctx v

/-- R104: the format of a row. -/
def Instr.format : Instr → Format
  | .clearC9 => .c9
  | .endC9 => .c9
  | .firstC9 _ => .c9
  | .badFirstC9 _ => .c9
  | .litC9 _ => .c9
  | .refC9 _ => .c9
  | .deferC9 _ => .c9
  | .badC9 _ => .c9
  | .clearC10 => .c10
  | .endC10 => .c10
  | .litC10 _ => .c10
  | .refC10 _ => .c10
  | .deferC10 _ => .c10
  | .badC10 _ => .c10
  | .clearC11 => .c11
  | .endC11 => .c11
  | .litC11 _ => .c11
  | .refC11 _ => .c11
  | .deferC11 _ => .c11
  | .badC11 _ => .c11
  | .clearC12 => .c12
  | .endC12 => .c12
  | .litC12 _ => .c12
  | .refC12 _ => .c12
  | .deferC12 _ => .c12
  | .badC12 _ => .c12

/-- R105: the class a row belongs to. -/
def Instr.cls : Instr → CodeClass
  | .clearC9 => .clear
  | .endC9 => .endOfInfo
  | .firstC9 _ => .first
  | .badFirstC9 _ => .badFirst
  | .litC9 _ => .lit
  | .refC9 _ => .ref
  | .deferC9 _ => .defer
  | .badC9 _ => .bad
  | .clearC10 => .clear
  | .endC10 => .endOfInfo
  | .litC10 _ => .lit
  | .refC10 _ => .ref
  | .deferC10 _ => .defer
  | .badC10 _ => .bad
  | .clearC11 => .clear
  | .endC11 => .endOfInfo
  | .litC11 _ => .lit
  | .refC11 _ => .ref
  | .deferC11 _ => .defer
  | .badC11 _ => .bad
  | .clearC12 => .clear
  | .endC12 => .endOfInfo
  | .litC12 _ => .lit
  | .refC12 _ => .ref
  | .deferC12 _ => .defer
  | .badC12 _ => .bad

/-- R95: the code value an instruction stands for. -/
def Instr.code : Instr → Nat
  | .clearC9 => Config.clearCode
  | .endC9 => Config.endCode
  | .firstC9 b => b.toNat
  | .badFirstC9 code => code.toNat
  | .litC9 b => b.toNat
  | .refC9 code => code.toNat
  | .deferC9 code => code.toNat
  | .badC9 code => code.toNat
  | .clearC10 => Config.clearCode
  | .endC10 => Config.endCode
  | .litC10 b => b.toNat
  | .refC10 code => code.toNat
  | .deferC10 code => code.toNat
  | .badC10 code => code.toNat
  | .clearC11 => Config.clearCode
  | .endC11 => Config.endCode
  | .litC11 b => b.toNat
  | .refC11 code => code.toNat
  | .deferC11 code => code.toNat
  | .badC11 code => code.toNat
  | .clearC12 => Config.clearCode
  | .endC12 => Config.endCode
  | .litC12 b => b.toNat
  | .refC12 code => code.toNat
  | .deferC12 code => code.toNat
  | .badC12 code => code.toNat

/-- R90: how many bits an instruction is long. -/
def Instr.width (i : Instr) : Nat := i.format.bits

/-- R104: the `when` column of the opcode table, together with what the rows of lower priority leave over. -/
def rowWhen (ctx : DecodeCtx) (code : Nat) : CodeClass → Bool
  | .clear => true
  | .endOfInfo => true
  | .first => !ctx.held
  | .badFirst => !ctx.held && dynamicCode code
  | .lit => ctx.held
  | .ref => ctx.held && dynamicCode code && decide (code ≤ ctx.maxCode)
  | .defer => ctx.held && dynamicCode code && decide (code = ctx.maxCode + 1)
  | .bad => ctx.held && dynamicCode code && decide (ctx.maxCode + 1 < code)

/-- R93, R104: a row applies when the decoder reads at its width and its condition holds. -/
def Instr.applies (i : Instr) (ctx : DecodeCtx) : Bool :=
  decide (ctx.width = i.width) && rowWhen ctx i.code i.cls

/-- R92, R94: two bytes that begin with the `w`-bit code `v`, most significant bit first, the bits after it zero. -/
def layout (w v : Nat) : List Byte :=
  [BitVec.ofNat 8 (v * 2 ^ (16 - w) / 256), BitVec.ofNat 8 (v * 2 ^ (16 - w))]

/-- R92, R104: the bytes of an instruction that stands alone, from the same table as `rowOf`. -/
def encode (i : Instr) : List Byte := layout i.width i.code

/-- notes/assumptions/17.md, DESIGN CHOICE: the format of a table word. The number of bits tells it where that is a code width;
otherwise it is the shortest format the value fits. -/
def tableFormat (nbits w : Nat) : Option Format :=
  match Format.ofWidth nbits with
  | some f => if w < 2 ^ f.bits then some f else none
  | none =>
    if w < 512 then some .c9
    else if w < 1024 then some .c10
    else if w < 2048 then some .c11
    else if w < 4096 then some .c12
    else none

/-- notes/assumptions/17.md, DESIGN CHOICE: the decoder state a table word is read in. At 9 bits it is decode start (R40), and above
that the first moment of a run with the width (R31), a previous sequence held (R103). -/
def tableCtx : Format → DecodeCtx
  | .c9 => ⟨9, 257, false⟩
  | .c10 => ⟨10, 510, true⟩
  | .c11 => ⟨11, 1022, true⟩
  | .c12 => ⟨12, 2046, true⟩

/-- The instruction the decoder reads from a word of the opcode table. -/
def decodeTableWord (nbits w : Nat) : Option Instr :=
  match tableFormat nbits w with
  | none => none
  | some f =>
    match decodeBytes (tableCtx f) (layout f.bits w) with
    | .ok i => some i
    | .reject _ => none

end Sys2Proof
end

