-- ==== Sys2Proof/Machine/State.lean ====
section
/-!
DEFINITION. The state of the block (R20 to R43), the reasons a step can stop, and the state at power-up.
-/

namespace Sys2Proof.Machine

/-- R60 (1), R61: the input space, byte positions and the bytes there, positions strictly rising. A position that is not listed holds
no byte: reading one below `LEN` is the broken host duty of R223 (b). -/
abbrev Memory := List Host.Cell

/-- R60 (2), R26: the dictionary space. A slot that is not listed is `EMPTY`; slots stand in strictly rising order. -/
abbrev Dictionary := List (Nat × ByteSeq)

/-- R22: the accumulator view of the bit cursor. -/
structure Accum where
  /-- whole input bytes consumed so far -/
  bytePos : Nat
  /-- pending bits held -/
  accCnt : Nat
  /-- the pending bits as a number -/
  acc : Nat
deriving DecidableEq, Repr

/-- R33: where the run stands. -/
inductive Phase where
  | idle | run | done | fault
deriving DecidableEq, Repr

/-- R35, R240 to R242: which test failed. -/
inductive Cause where
  | noFault | afterReset | outOfRange | reserved
deriving DecidableEq, Repr

/-- R20, R33 to R37: everything the block holds, with the run's two parameters `IN` and `LEN` and the host's START line beside it. -/
structure State where
  /-- R8, R60: `IN`, the input buffer, a parameter of the run -/
  input : Memory
  /-- R8, R37 register 4: `LEN`, the number of input bytes, a parameter of the run -/
  len : Nat
  /-- R21: the bit cursor, the block's program counter -/
  pos : Nat
  /-- R22: the same cursor as bytes consumed and pending bits -/
  accum : Accum
  /-- R23: the code width -/
  width : Nat
  /-- R24: the highest code assigned so far -/
  maxCode : Nat
  /-- R25: the previous sequence, `none` for `NONE` -/
  prev : Option ByteSeq
  /-- R26 to R30: the dictionary -/
  dict : Dictionary
  /-- R32: the bytes emitted so far -/
  out : List Byte
  /-- R36: how many bytes have been pushed -/
  outCount : Nat
  /-- R33 -/
  phase : Phase
  /-- R34: the truncation flag -/
  trunc : Bool
  /-- R35: which test failed -/
  fcause : Cause
  /-- R35: the offending code -/
  fcode : BitVec 12
  /-- R35: the stream bit at which the offending code starts -/
  fpos : Nat
  /-- The model's own field: the host has issued START (R217) and the block has not taken it yet. See notes/assumptions/5.md. -/
  startReq : Bool
deriving DecidableEq, Repr

/-- Why the machine is stuck. -/
inductive Fault where
  /-- R223 (b), U21: a read of an input position below `LEN` at which the host's buffer has no byte. Raised by `codeStep` when
  `GETCODE` meets it. Safe: the spec gives such a run no meaning, and the model stops. -/
  | inputByteAbsent
deriving DecidableEq, Repr

/-- What the machine refuses. -/
inductive Refusal where
  /-- An instruction that has no meaning yet, by its mnemonic. No arm of `exec` answers with it. Safe: the model stops. -/
  | notModelled (mnemonic : String)
  /-- R219: START while a run is in progress, or issued and not taken yet. Raised by `step` and by `hostStart`. Safe: the spec gives it no
  step. -/
  | startDuringRun
  /-- R223 (a): the host prepares another input from START on, before the run has ended. Raised by `hostPrepare`. Safe: the spec gives it
  no meaning. -/
  | inputChangeDuringRun
  /-- R127: `GETCODE` asked for a width outside 9 to 12. Raised by `codeStep`; no run reaches it. Safe: the model stops. -/
  | widthOutOfRange
  /-- R103: a class that has no row at the format of the width. Raised by `codeStep`; no run reaches it. Safe: the model stops. -/
  | noRow
  /-- R104: a row executed in a state in which it does not apply. Raised by every meaning; `codeStep` never gives a meaning such
  a state. Safe: the model stops. -/
  | rowNotApplicable
deriving DecidableEq, Repr

/-- R27, R276: the slots that hold data after a reset, the 256 one-byte entries. -/
def literalEntries : Dictionary :=
  (List.range Config.nLiteral).map fun i => (i, ByteSeq.single (BitVec.ofNat 8 i))

/-- R33, R40, R280: power-up, before any START. The spec gives `phase = IDLE` and leaves the rest unspecified; the other values are
those of R40's decode-start column, with no input prepared: DESIGN CHOICE, notes/assumptions/3.md. -/
def State.reset : State where
  input := []
  len := 0
  pos := 0
  accum := ⟨0, 0, 0⟩
  width := Config.wMin
  maxCode := Config.maxCodeReset
  prev := none
  dict := literalEntries
  out := []
  outCount := 0
  phase := .idle
  trunc := false
  fcause := .noFault
  fcode := 0
  fpos := 0
  startReq := false

end Sys2Proof.Machine
end

