-- ==== Sys2Proof/Machine/Ops.lean ====
section
/-!
DEFINITION. The operations the codes share: sparse storage, the input reads, `GETCODE` in both its forms, the dictionary's reset and
insertion, emission, taking the one exception, stopping, and START.
-/

namespace Sys2Proof.Machine

/-! ### Sparse storage, for the input space and the dictionary space alike -/

/-- What a position or slot holds; `none` when it is not listed. -/
def Sparse.read {α : Type} : List (Nat × α) → Nat → Option α
  | [], _ => none
  | (k, v) :: rest, a => if k = a then some v else Sparse.read rest a

/-- Store at a position or slot, keeping the keys strictly rising. -/
def Sparse.write {α : Type} : List (Nat × α) → Nat → α → List (Nat × α)
  | [], a, x => [(a, x)]
  | (k, v) :: rest, a, x =>
    if a < k then (a, x) :: (k, v) :: rest
    else if a = k then (a, x) :: rest
    else (k, v) :: Sparse.write rest a x

/-- The canonical form: keys strictly rising. An unlisted key reads as nothing, so no entry can equal what it reads as. -/
abbrev Sparse.wf {α : Type} (m : List (Nat × α)) : Prop := m.Pairwise fun p q => p.1 < q.1

/-- R66: the byte at an input position. -/
def Memory.read (m : Memory) (a : Nat) : Option Byte := Sparse.read m a

/-- The host places a byte of the input buffer; the block itself has no such store (R16). -/
def Memory.write (m : Memory) (a : Nat) (b : Byte) : Memory := Sparse.write m a b

/-- The canonical form of the input space. -/
abbrev Memory.wf (m : Memory) : Prop := Sparse.wf m

/-- R61: the bytes of a band from position `k` on. -/
def Memory.ofBytesFrom (k : Nat) : List Byte → Memory
  | [] => []
  | b :: bs => (k, b) :: Memory.ofBytesFrom (k + 1) bs

/-- R26: what a dictionary slot holds; `none` is `EMPTY`. -/
def Dictionary.read (d : Dictionary) (i : Nat) : Option ByteSeq := Sparse.read d i

/-- R15: `DICT[i] <- s`. -/
def Dictionary.write (d : Dictionary) (i : Nat) (e : ByteSeq) : Dictionary := Sparse.write d i e

/-- The canonical form of the dictionary space. -/
abbrev Dictionary.wf (d : Dictionary) : Prop := Sparse.wf d

/-! ### The input side -/

/-- R16: `HasMore(i)`. -/
def hasMore (s : State) (i : Nat) : Bool := decide (i < s.len)

/-- R16, R67: `MemRead(i, 1)`, defined only below `LEN`. -/
def memRead (s : State) (i : Nat) : Option Byte := if hasMore s i then s.input.read i else none

/-- R13, R62: stream bit `i`. -/
def streamBit (s : State) (i : Nat) : Option Bool := (memRead s (i / 8)).map (byteBit · (i % 8))

/-- R123: the top-up loop, at most `n` times round; R124 says two are enough. It ends when `W` bits are held or the buffer is
exhausted (or, against R223 (b), holds no byte). -/
def topUp (s : State) (W : Nat) : Nat → Accum → Accum
  | 0, a => a
  | n + 1, a =>
    if a.accCnt < W then
      match memRead s a.bytePos with
      | none => a
      | some b => topUp s W n ⟨a.bytePos + 1, a.accCnt + 8, a.acc * 256 + b.toNat⟩
    else a

/-- R123: the accumulator form of `GETCODE(W)`: the code, or `none` for `EOF`, and the accumulator afterwards. -/
def accumGetCode (s : State) (W : Nat) (a : Accum) : Option Nat × Accum :=
  let t := topUp s W 2 a
  if t.accCnt < W then (none, t)
  else
    (some (t.acc / 2 ^ (t.accCnt - W)), ⟨t.bytePos, t.accCnt - W, t.acc % 2 ^ (t.accCnt - W)⟩)

/-- What `GETCODE` answers (R120), with the state after it. -/
inductive Fetch where
  | code (v : Nat) (s : State)
  | eof (s : State)
  /-- R223 (b) broken: a byte below `LEN` is not there -/
  | absent
  /-- R127: the width is outside 9 to 12 -/
  | widthOutOfRange

/-- R120 to R122, R127: `GETCODE(W)` over the bit cursor, which decides the result. The accumulator moves beside it as R123 says. -/
def getCode (W : Nat) (s : State) : Fetch :=
  if Config.wMin ≤ W ∧ W ≤ Config.wMax then
    if s.pos + W ≤ 8 * s.len then
      match assemble (streamBit s) s.pos W with
      | none => .absent
      | some v => .code v { s with pos := s.pos + W, accum := (accumGetCode s W s.accum).2 }
    else .eof { s with accum := (accumGetCode s W s.accum).2 }
  else .widthOutOfRange

/-- R93, R96, R97: what the classification of the next code depends on. -/
def decodeCtx (s : State) : DecodeCtx := ⟨s.width, s.maxCode, s.prev.isSome⟩

/-! ### The dictionary -/

/-- R276: `Reset()`, the operation both resets share. -/
def resetDictionary (s : State) : State :=
  { s with dict := literalEntries, maxCode := Config.maxCodeReset, width := Config.wMin, prev := none }

/-- R181: the width after an entry has been written at index `maxCode`. -/
def grownWidth (width maxCode : Nat) : Nat :=
  if width < Config.wMax ∧ 2 ^ width - 2 ≤ maxCode then width + 1 else width

/-- R180 to R182: `Insert(s)`. -/
def insertEntry (e : ByteSeq) (s : State) : State :=
  if s.maxCode = Config.codeMax then s
  else
    { s with
      maxCode := s.maxCode + 1
      dict := s.dict.write (s.maxCode + 1) e
      width := grownWidth s.width (s.maxCode + 1) }

/-! ### The output side -/

/-- R200: `OutPush(b)`. -/
def outPush (b : Byte) (s : State) : State := { s with out := s.out ++ [b], outCount := s.outCount + 1 }

/-- R201: `Emit(s)`, first byte first. -/
def emit : List Byte → State → State
  | [], s => s
  | b :: bs, s => emit bs (outPush b s)

/-- R15, R25: `prev <- e`. -/
def setPrev (e : ByteSeq) (s : State) : State := { s with prev := some e }

/-! ### The ends of a run, and its beginning -/

/-- R17, R148, R149: `stop(trunc)`. -/
def stop (trunc : Bool) (s : State) : State := { s with phase := .done, trunc := trunc }

/-- R243, R252: `raise CorruptedStream(cause, code, at)`, the block's one exception. It records the fault and ends the run; control
goes nowhere. -/
def raise (cause : Cause) (code : Nat) (at_ : Nat) (s : State) : State :=
  { s with phase := .fault, fcause := cause, fcode := BitVec.ofNat 12 code, fpos := at_ }

/-- R217, R255, R277: START, the decode-start reset. It is the only way out of `FAULT`: there is no return from the exception. -/
def start (s : State) : State :=
  { resetDictionary s with
    pos := 0
    accum := ⟨0, 0, 0⟩
    out := []
    outCount := 0
    trunc := false
    fcause := .noFault
    fcode := 0
    fpos := 0
    phase := .run
    startReq := false }

/-! ### Placing a code where the next step reads it (for `State.withFetchWord`) -/

/-- R13: a byte with the bit of weight `2^(7-j)` set to `v`. -/
def setByteBit (b : Byte) (j : Nat) (v : Bool) : Byte :=
  (b &&& ~~~(1#8 <<< (7 - j))) ||| (if v then 1#8 <<< (7 - j) else 0)

/-- R13: the input space with stream bit `i` set to `v`. -/
def Memory.setBit (m : Memory) (i : Nat) (v : Bool) : Memory :=
  m.write (i / 8) (setByteBit ((m.read (i / 8)).getD 0) (i % 8) v)

/-- R92: the input space with the `n`-bit value `w` at stream bits `p` to `p + n - 1`, its most significant bit first. -/
def Memory.setBits (p : Nat) : Nat → Nat → Memory → Memory
  | 0, _, m => m
  | n + 1, w, m => Memory.setBits p n (w / 2) (m.setBit (p + n) (w.testBit 0))

/-- R22: the accumulator view of a cursor. -/
def Accum.ofCursor (m : Memory) (p : Nat) : Accum :=
  let k := (p + 7) / 8
  ⟨k, 8 * k - p, ((m.read (k - 1)).getD 0).toNat % 2 ^ (8 * k - p)⟩

/-- R92, R94: the state with the code `w` of `W` bits at its cursor, `LEN` raised where the code would not fit, and the accumulator
made the view of the same cursor again. -/
def storeCode (W w : Nat) (s : State) : State :=
  let m := Memory.setBits s.pos W w s.input
  { s with input := m, len := max s.len ((s.pos + W + 7) / 8), accum := Accum.ofCursor m s.pos }

/-- notes/assumptions/17.md, DESIGN CHOICE: a started run with an empty input, at the first moment its width is that of the format.
Above 9 bits that is the state after `FIRST 0` and as many `LIT 0` as it takes, its output left out. -/
def bootFor (f : Format) (s : State) : State :=
  let t := start { s with input := [], len := 0 }
  match f with
  | .c9 => t
  | f =>
    let c := tableCtx f
    { t with
      width := c.width
      maxCode := c.maxCode
      prev := some (ByteSeq.single 0)
      dict := literalEntries ++ (List.range (c.maxCode - 257)).map fun i => (i + 258, (ByteSeq.single 0).snoc 0) }

end Sys2Proof.Machine
end

