-- ==== Sys2Proof/Machine/Operands.lean ====
section
/-!
DEFINITION. The operand of a code, the lookup of its entry, and the frame every row shares: it runs only where it applies.
-/

namespace Sys2Proof.Machine

/-- The three outcomes of one code step. -/
abbrev Result := Host.Outcome State Fault Refusal

/-- R185: `Present(c)`. -/
def present (s : State) (c : Nat) : Bool :=
  decide (c < Config.nLiteral) || (decide (Config.firstFree ≤ c) && decide (c ≤ s.maxCode))

/-- R175, R185: the entry of a code; `none` is the guard's case, a reserved slot or one that holds nothing. -/
def lookup (s : State) (c : Nat) : Option ByteSeq :=
  if c = Config.clearCode ∨ c = Config.endCode then none else s.dict.read c

/-- R140, R243: `at`, the value the cursor had before the code of `i` was read. A meaning runs after the read, so the cursor stands
just past the code. See notes/assumptions/18.md. -/
def codeStart (i : Instr) (s : State) : Nat := s.pos - i.width

/-- R104, R218: a row has its effect while a run is in progress and its condition holds. -/
def inRow (i : Instr) (s : State) (effect : Result) : Result :=
  if s.phase = .run ∧ i.applies (decodeCtx s) = true then effect else .refused .rowNotApplicable

end Sys2Proof.Machine
end

