-- ==== Sys2Proof/Machine/Control.lean ====
section
/-!
DEFINITION. The control codes and the first code after a reset: `CLEAR`, `END`, `FIRST`, `BADFIRST`, and the end-of-input sentinel.
-/

namespace Sys2Proof.Machine

/-- R143, R145, R278: `CLEAR` is `Reset()` and nothing else; the cursor already stands past the code. -/
def doClear (s : State) : Result := .next (resetDictionary s)

/-- R148: `END` stops the run with `trunc = 0`. -/
def doEnd (s : State) : Result := .next (stop false s)

/-- R149, R245: `EOF` stops the run with `trunc = 1`; it is never a fault. -/
def execEof (s : State) : Result := .next (stop true s)

/-- R146: `FIRST c` emits the entry and records it, and inserts nothing. R175 guards the lookup. -/
def doFirst (c at_ : Nat) (s : State) : Result :=
  match lookup s c with
  | none => .next (raise .reserved c at_ s)
  | some e => .next (setPrev e (emit e.toList s))

/-- R147, R240: `BADFIRST c` raises the exception with cause 1. -/
def doBadFirst (c at_ : Nat) (s : State) : Result := .next (raise .afterReset c at_ s)

/-- R143 at 9 bits. -/
def execClearC9 (s : State) : Result := inRow .clearC9 s (doClear s)

/-- R148 at 9 bits. -/
def execEndC9 (s : State) : Result := inRow .endC9 s (doEnd s)

/-- R143 at 10 bits. -/
def execClearC10 (s : State) : Result := inRow .clearC10 s (doClear s)

/-- R148 at 10 bits. -/
def execEndC10 (s : State) : Result := inRow .endC10 s (doEnd s)

/-- R143 at 11 bits. -/
def execClearC11 (s : State) : Result := inRow .clearC11 s (doClear s)

/-- R148 at 11 bits. -/
def execEndC11 (s : State) : Result := inRow .endC11 s (doEnd s)

/-- R143 at 12 bits. -/
def execClearC12 (s : State) : Result := inRow .clearC12 s (doClear s)

/-- R148 at 12 bits. -/
def execEndC12 (s : State) : Result := inRow .endC12 s (doEnd s)

/-- R146 at 9 bits, the only format that has the row (R103). -/
def execFirstC9 (b : Byte) (s : State) : Result :=
  inRow (.firstC9 b) s (doFirst b.toNat (codeStart (.firstC9 b) s) s)

/-- R147 at 9 bits, the only format that has the row (R103). -/
def execBadFirstC9 (code : BitVec 9) (s : State) : Result :=
  inRow (.badFirstC9 code) s (doBadFirst code.toNat (codeStart (.badFirstC9 code) s) s)

end Sys2Proof.Machine
end

