-- ==== Sys2Proof/Machine/DictionaryCodes.lean ====
section
/-!
DEFINITION. The codes that go through the dictionary in state HASPREV: `LIT`, `REF`, `DEFER`, `BAD`.
-/

namespace Sys2Proof.Machine

/-- R171, R172, R187: an ordinary code that is in the dictionary. It emits its entry, inserts the previous sequence extended by the
first byte of the entry, and records the entry. R175 guards the lookup. -/
def doPresent (c at_ : Nat) (s : State) : Result :=
  match s.prev with
  | none => .refused .rowNotApplicable
  | some p =>
    match lookup s c with
    | none => .next (raise .reserved c at_ s)
    | some e => .next (setPrev e (insertEntry (p.snoc e.first) (emit e.toList s)))

/-- R173, R187: the deferred code. It emits, inserts and records the previous sequence extended by its own first byte. -/
def doDeferred (s : State) : Result :=
  match s.prev with
  | none => .refused .rowNotApplicable
  | some p =>
    let e := p.snoc p.first
    .next (setPrev e (insertEntry e (emit e.toList s)))

/-- R174, R241: `BAD c` raises the exception with cause 2. -/
def doBad (c at_ : Nat) (s : State) : Result := .next (raise .outOfRange c at_ s)

/-- R171 at 9 bits. -/
def execLitC9 (b : Byte) (s : State) : Result :=
  inRow (.litC9 b) s (doPresent b.toNat (codeStart (.litC9 b) s) s)

/-- R172 at 9 bits. -/
def execRefC9 (code : BitVec 9) (s : State) : Result :=
  inRow (.refC9 code) s (doPresent code.toNat (codeStart (.refC9 code) s) s)

/-- R173 at 9 bits. -/
def execDeferC9 (code : BitVec 9) (s : State) : Result := inRow (.deferC9 code) s (doDeferred s)

/-- R174 at 9 bits. -/
def execBadC9 (code : BitVec 9) (s : State) : Result :=
  inRow (.badC9 code) s (doBad code.toNat (codeStart (.badC9 code) s) s)

/-- R171 at 10 bits. -/
def execLitC10 (b : Byte) (s : State) : Result :=
  inRow (.litC10 b) s (doPresent b.toNat (codeStart (.litC10 b) s) s)

/-- R172 at 10 bits. -/
def execRefC10 (code : BitVec 10) (s : State) : Result :=
  inRow (.refC10 code) s (doPresent code.toNat (codeStart (.refC10 code) s) s)

/-- R173 at 10 bits. -/
def execDeferC10 (code : BitVec 10) (s : State) : Result := inRow (.deferC10 code) s (doDeferred s)

/-- R174 at 10 bits. -/
def execBadC10 (code : BitVec 10) (s : State) : Result :=
  inRow (.badC10 code) s (doBad code.toNat (codeStart (.badC10 code) s) s)

/-- R171 at 11 bits. -/
def execLitC11 (b : Byte) (s : State) : Result :=
  inRow (.litC11 b) s (doPresent b.toNat (codeStart (.litC11 b) s) s)

/-- R172 at 11 bits. -/
def execRefC11 (code : BitVec 11) (s : State) : Result :=
  inRow (.refC11 code) s (doPresent code.toNat (codeStart (.refC11 code) s) s)

/-- R173 at 11 bits. -/
def execDeferC11 (code : BitVec 11) (s : State) : Result := inRow (.deferC11 code) s (doDeferred s)

/-- R174 at 11 bits. -/
def execBadC11 (code : BitVec 11) (s : State) : Result :=
  inRow (.badC11 code) s (doBad code.toNat (codeStart (.badC11 code) s) s)

/-- R171 at 12 bits. -/
def execLitC12 (b : Byte) (s : State) : Result :=
  inRow (.litC12 b) s (doPresent b.toNat (codeStart (.litC12 b) s) s)

/-- R172 at 12 bits. -/
def execRefC12 (code : BitVec 12) (s : State) : Result :=
  inRow (.refC12 code) s (doPresent code.toNat (codeStart (.refC12 code) s) s)

/-- R173 at 12 bits. -/
def execDeferC12 (code : BitVec 12) (s : State) : Result := inRow (.deferC12 code) s (doDeferred s)

/-- R174 at 12 bits. -/
def execBadC12 (code : BitVec 12) (s : State) : Result :=
  inRow (.badC12 code) s (doBad code.toNat (codeStart (.badC12 code) s) s)

end Sys2Proof.Machine
end

