-- ==== Sys2Proof/Machine/Dispatch.lean ====
section
/-!
DEFINITION. One arm per row of the opcode table, each a direct call of that row's own meaning.
-/

namespace Sys2Proof.Machine

def exec (i : Instr) (s : State) : Host.Outcome State Fault Refusal :=
  match i with
  | .clearC9 => Sys2Proof.Machine.execClearC9 s
  | .endC9 => Sys2Proof.Machine.execEndC9 s
  | .firstC9 b => Sys2Proof.Machine.execFirstC9 b s
  | .badFirstC9 code => Sys2Proof.Machine.execBadFirstC9 code s
  | .litC9 b => Sys2Proof.Machine.execLitC9 b s
  | .refC9 code => Sys2Proof.Machine.execRefC9 code s
  | .deferC9 code => Sys2Proof.Machine.execDeferC9 code s
  | .badC9 code => Sys2Proof.Machine.execBadC9 code s
  | .clearC10 => Sys2Proof.Machine.execClearC10 s
  | .endC10 => Sys2Proof.Machine.execEndC10 s
  | .litC10 b => Sys2Proof.Machine.execLitC10 b s
  | .refC10 code => Sys2Proof.Machine.execRefC10 code s
  | .deferC10 code => Sys2Proof.Machine.execDeferC10 code s
  | .badC10 code => Sys2Proof.Machine.execBadC10 code s
  | .clearC11 => Sys2Proof.Machine.execClearC11 s
  | .endC11 => Sys2Proof.Machine.execEndC11 s
  | .litC11 b => Sys2Proof.Machine.execLitC11 b s
  | .refC11 code => Sys2Proof.Machine.execRefC11 code s
  | .deferC11 code => Sys2Proof.Machine.execDeferC11 code s
  | .badC11 code => Sys2Proof.Machine.execBadC11 code s
  | .clearC12 => Sys2Proof.Machine.execClearC12 s
  | .endC12 => Sys2Proof.Machine.execEndC12 s
  | .litC12 b => Sys2Proof.Machine.execLitC12 b s
  | .refC12 code => Sys2Proof.Machine.execRefC12 code s
  | .deferC12 code => Sys2Proof.Machine.execDeferC12 code s
  | .badC12 code => Sys2Proof.Machine.execBadC12 code s

end Sys2Proof.Machine
end

