-- ==== Sys2Proof/Machine/Sequencer.lean ====
section
/-!
DEFINITION. The code step of the decode loop (R140, R142): read one code at the width in force, classify it, carry it out.
-/

namespace Sys2Proof.Machine

/-- R140, R142: one code step of a run in progress. -/
def codeStep (s : State) : Result :=
  match getCode s.width s with
  | .widthOutOfRange => .refused .widthOutOfRange
  | .absent => .fault .inputByteAbsent
  | .eof t => execEof t
  | .code v t =>
    match decode (decodeCtx s) v with
    | .ok i => exec i t
    | .reject _ => .refused .noRow

/-- The state with the table word where the next step reads its code. A run in progress gets the word at its cursor, at its own width;
any other state gets it as the input of a run just started. See notes/assumptions/17.md. -/
def placeTableWord (s : State) (nbits w : Nat) : State :=
  match tableFormat nbits w with
  | none => s
  | some f =>
    match s.phase with
    | .run => { storeCode s.width w s with startReq := false }
    | _ => storeCode f.bits w (bootFor f s)

end Sys2Proof.Machine
end

