-- ==== Sys2Proof/Machine/Step.lean ====
section
/-!
DEFINITION. One step of the block: a code step while a run is in progress; otherwise START when the host has issued it, and nothing
when it has not.
-/

namespace Sys2Proof.Machine

/-- R140, R217 to R219: one step. `IDLE`, `DONE` and `FAULT` are stable until the next START, and START during `RUN` has no step. -/
def step (s : State) : Host.Outcome State Fault Refusal :=
  match s.phase, s.startReq with
  | .run, true => .refused .startDuringRun
  | .run, false => codeStep s
  | _, true => .next (start s)
  | _, false => .next s

/-- `s` with a word of the opcode table where `step` fetches its next instruction. -/
def State.withFetchWord (s : State) (nbits w : Nat) : State := placeTableWord s nbits w

end Sys2Proof.Machine
end

