-- ==== Sys2Proof/Machine/Flags.lean ====
section
/-!
DEFINITION. The status record (R33 to R37): its number codes and the host-readable registers. No code reads or computes a flag (R43).
-/

namespace Sys2Proof.Machine

/-- R37: the number of a phase. -/
def Phase.num : Phase → BitVec 2
  | .idle => 0
  | .run => 1
  | .done => 2
  | .fault => 3

/-- R37, R244: the number of a fault cause. -/
def Cause.num : Cause → BitVec 2
  | .noFault => 0
  | .afterReset => 1
  | .outOfRange => 2
  | .reserved => 3

/-- R37 register 0: `STATUS`, bits 7 to 5 read as 0. -/
def statusWord (s : State) : BitVec 8 := 0#3 ++ s.fcause.num ++ BitVec.ofBool s.trunc ++ s.phase.num

/-- R217, R226: what the host sees. From START on it sees the run: while a START it has issued waits for the next step it sees the
decode-start state that step will give, `phase = RUN` in it (notes/assumptions/5.md). -/
def hostView (s : State) : State := if s.startReq = true ∧ s.phase ≠ .run then start s else s

/-- R37: the registers the host can read, by number. There is no other. -/
def hostRead (n : Nat) (s : State) : Option Nat :=
  match n with
  | 0 => some (statusWord (hostView s)).toNat
  | 1 => some (hostView s).fcode.toNat
  | 2 => some (hostView s).fpos
  | 3 => some (hostView s).outCount
  | 4 => some (hostView s).len
  | _ => none

end Sys2Proof.Machine
end

