-- ==== Sys2Proof/Machine/HostPort.lean ====
section
/-!
DEFINITION. The host's side of the block (R215 to R226): preparing an input, START, the result of a run, and `decode` as a function.
-/

namespace Sys2Proof.Machine

/-- R223, R225: from START until the run ends the host can neither prepare nor start. The host issued START when the run is in progress,
and already when the line is up and the next step has yet to take it (notes/assumptions/5.md). -/
def startIssued (s : State) : Bool := s.startReq || decide (s.phase = .run)

/-- R226 "prepare": the host places an input and writes `LEN`, all of it before START (R282). R223 (a): `IN` is the same from START until
the run ends, so from START on it is refused. -/
def hostPrepare (bytes : List Byte) (s : State) : Result :=
  if startIssued s then .refused .inputChangeDuringRun
  else .next { s with input := Memory.ofBytesFrom 0 bytes, len := bytes.length }

/-- R217, R219: the host issues START; the block's next step takes it. Once issued it cannot be issued again until the run ends. -/
def hostStart (s : State) : Result :=
  if startIssued s then .refused .startDuringRun else .next { s with startReq := true }

/-- R216: what a run gives its caller. -/
inductive DecodeResult where
  /-- the decoded bytes and the truncation flag -/
  | ok (out : List Byte) (trunc : Bool)
  /-- the fault record and the bytes emitted before the offending code -/
  | error (cause : Cause) (code : BitVec 12) (at_ : Nat) (partialOut : List Byte)
deriving DecidableEq, Repr

/-- R216, R224: the result that stands in the status record and the sink, once a run has ended and until the next START. -/
def hostResult (s : State) : Option DecodeResult :=
  let v := hostView s
  match v.phase with
  | .done => some (.ok v.out v.trunc)
  | .fault => some (.error v.fcause v.fcode v.fpos v.out)
  | _ => none

/-- R216: `decode(IN)`, by the loop of R140 from decode start. R152 bounds the loop, so `none` is never the answer. -/
def decodeStream (bytes : List Byte) : Option DecodeResult :=
  match hostPrepare bytes State.reset with
  | .next s =>
    match Host.Core.run Sys2Proof.core (8 * bytes.length / 9 + 1) (start s) with
    | .next t => hostResult t
    | _ => none
  | _ => none

end Sys2Proof.Machine
end

