-- ==== Sys2Proof/Safety.lean ====
section
/-!
DEFINITION. What counts as a sound state and a sound effect, in the terms the claims use: the spec's invariants (R21 to R42), the host's
duty, and the effects of insertion, reset and the fault written down by reads alone.
-/

namespace Sys2Proof.Machine

/-- R31: the width that belongs to a value of `maxCode`. -/
def widthFor (maxCode : Nat) : Nat :=
  if maxCode < 510 then 9 else if maxCode < 1022 then 10 else if maxCode < 2046 then 11 else 12

/-- R24, R27 to R29, R31, R41, R42, R103: what holds of the decoder's working state at every code boundary. -/
structure DictInv (s : State) : Prop where
  /-- R24 -/
  maxCodeLow : 257 ≤ s.maxCode
  /-- R24 -/
  maxCodeHigh : s.maxCode ≤ 4095
  /-- R31 -/
  widthOfMaxCode : s.width = widthFor s.maxCode
  /-- R27 -/
  literals : ∀ c, c < 256 → s.dict.read c = some (ByteSeq.single (BitVec.ofNat 8 c))
  /-- R28 -/
  reservedClear : s.dict.read 256 = none
  /-- R28 -/
  reservedEnd : s.dict.read 257 = none
  /-- R29, R42: a dynamic entry is an older entry plus one byte -/
  dynamic : ∀ c, 258 ≤ c → c ≤ s.maxCode →
    ∃ j e b, j < c ∧ s.dict.read j = some e ∧ s.dict.read c = some (e.snoc b)
  /-- R29: nothing above `maxCode` -/
  emptyAbove : ∀ c, s.maxCode < c → s.dict.read c = none
  /-- R41 -/
  prevIsEntry : ∀ p, s.prev = some p → ∃ c, c ≤ s.maxCode ∧ s.dict.read c = some p
  /-- R97, R103: in state NOPREV `maxCode` is 257 -/
  noPrevFresh : s.prev = none → s.maxCode = 257

/-- R21, R22: the cursor lies within the input, and the accumulator is the same cursor held as bytes and pending bits. -/
structure CursorInv (s : State) : Prop where
  /-- R21 -/
  posInInput : s.pos ≤ 8 * s.len
  /-- R22: `pos = 8·bytePos − accCnt` -/
  tied : 8 * s.accum.bytePos = s.pos + s.accum.accCnt
  /-- R22: fewer than 8 bits of carry -/
  carry : s.accum.accCnt ≤ 7
  /-- R22: no pending bits -/
  noPending : s.accum.accCnt = 0 → s.accum.acc = 0
  /-- R22: the pending bits are the last ones of the last byte consumed -/
  pending : 0 < s.accum.accCnt →
    ∃ b, memRead s (s.accum.bytePos - 1) = some b ∧ s.accum.acc = b.toNat % 2 ^ s.accum.accCnt

/-- R34 to R36, R43: what holds of the status record. -/
structure StatusInv (s : State) : Prop where
  /-- R36 -/
  count : s.outCount = s.out.length
  /-- R34 -/
  truncOnlyDone : s.trunc = true → s.phase = .done
  /-- R35 -/
  causeOnFault : s.fcause ≠ .noFault ↔ s.phase = .fault
  /-- R35, R40: the record is 0 until a fault writes it -/
  recordClear : s.phase ≠ .fault → s.fcode = 0 ∧ s.fpos = 0

/-- The canonical form of both stores. -/
def StoresWf (s : State) : Prop := s.input.wf ∧ s.dict.wf

/-- R223 (b), (d): the buffer holds a byte at every position below `LEN`, and START is not issued during a run. -/
structure HostDuty (s : State) : Prop where
  inputPresent : ∀ k, k < s.len → s.input.read k ≠ none
  noStartInRun : s.phase = .run → s.startReq = false

/-- R13, R62: the value of stream bit `i`, 0 or 1, from the byte it stands in. -/
def streamBitValue (s : State) (i : Nat) : Nat :=
  match s.input.read (i / 8) with
  | some b => b.toNat / 2 ^ (7 - i % 8) % 2
  | none => 0

/-- R180, R181: `t` is what `s` is after the insertion of `e`, as far as `maxCode`, the width and every slot go. -/
def Inserted (e : ByteSeq) (s t : State) : Prop :=
  (s.maxCode = 4095 → t.maxCode = 4095 ∧ t.width = s.width ∧ ∀ a, t.dict.read a = s.dict.read a) ∧
  (s.maxCode ≠ 4095 →
    t.maxCode = s.maxCode + 1 ∧
    t.dict.read (s.maxCode + 1) = some e ∧
    (∀ a, a ≠ s.maxCode + 1 → t.dict.read a = s.dict.read a) ∧
    (s.width < 12 → 2 ^ s.width - 2 ≤ s.maxCode + 1 → t.width = s.width + 1) ∧
    (¬(s.width < 12 ∧ 2 ^ s.width - 2 ≤ s.maxCode + 1) → t.width = s.width))

/-- R171 to R173: `i` carried out at `s` emits the bytes of `e`, inserts `ins`, records `e`, and changes nothing else. -/
def EmitsAndInserts (i : Instr) (s : State) (e ins : ByteSeq) : Prop :=
  ∃ t, exec i s = .next t ∧ Inserted ins s t ∧
    t = { s with
      out := s.out ++ e.toList
      outCount := s.outCount + e.length
      prev := some e
      maxCode := t.maxCode
      width := t.width
      dict := t.dict }

/-- R276: `i` carried out at `s` resets the dictionary, `maxCode`, the width and `prev`, and changes nothing else. -/
def ResetsBy (i : Instr) (s : State) : Prop :=
  ∃ t, exec i s = .next t ∧
    t = { s with dict := t.dict, maxCode := 257, width := 9, prev := none } ∧
    (∀ c, c < 256 → t.dict.read c = some (ByteSeq.single (BitVec.ofNat 8 c))) ∧
    (∀ c, 256 ≤ c → t.dict.read c = none)

/-- R243, R252: `i` carried out at `s` enters `FAULT` with this record, and changes nothing else. -/
def FaultsBy (i : Instr) (s : State) (cause : Cause) (code at_ : Nat) : Prop :=
  exec i s = .next { s with phase := .fault, fcause := cause, fcode := BitVec.ofNat 12 code, fpos := at_ }

/-- R96, R142: the class of a code value in state HASPREV. -/
def HeldClass (maxCode v : Nat) (c : CodeClass) : Prop :=
  (v = 257 → c = .endOfInfo) ∧
  (v = 256 → c = .clear) ∧
  (v ≤ 255 → c = .lit) ∧
  (258 ≤ v → v ≤ maxCode → c = .ref) ∧
  (258 ≤ v → v = maxCode + 1 → c = .defer) ∧
  (258 ≤ v → maxCode + 1 < v → c = .bad)

/-- R97, R142: the class of a code value in state NOPREV. -/
def FreshClass (v : Nat) (c : CodeClass) : Prop :=
  (v = 257 → c = .endOfInfo) ∧
  (v = 256 → c = .clear) ∧
  (v ≤ 255 → c = .first) ∧
  (258 ≤ v → c = .badFirst)

end Sys2Proof.Machine
end

