-- ==== Sys2Proof/Certificates/Slice0/Obligations.lean ====
section
/-!
DEFINITION. The statements for the provers. A statement says in its docstring which rule it formalises. Rules that the spec marks as its
own decision or derivation, and the model's own conventions, make a statement 'derived' in OBLIGATIONS.json.
-/

open Sys2Proof Sys2Proof.Machine

/-! ### Encoding and classification -/

/-- R104: one word of every row's class, written out from the opcode table's encodings, and one of every format. -/
def Obligations.TableEncodingsDecode : Prop :=
  -- CLEAR at C9: 100000000
  decodeBytes ⟨9, 257, false⟩ [0b10000000#8, 0b00000000#8] = .ok .clearC9 ∧
  -- END at C10: 0100000001
  decodeBytes ⟨10, 510, true⟩ [0b01000000#8, 0b01000000#8] = .ok .endC10 ∧
  -- FIRST at C9: 0cccccccc with code 65
  decodeBytes ⟨9, 257, false⟩ [0b00100000#8, 0b10000000#8] = .ok (.firstC9 65#8) ∧
  -- BADFIRST at C9: the value 258
  decodeBytes ⟨9, 257, false⟩ [0b10000001#8, 0b00000000#8] = .ok (.badFirstC9 258#9) ∧
  -- LIT at C11: 000cccccccc with code 66
  decodeBytes ⟨11, 1022, true⟩ [0b00001000#8, 0b01000000#8] = .ok (.litC11 66#8) ∧
  -- REF at C9: the value 258 = maxCode
  decodeBytes ⟨9, 258, true⟩ [0b10000001#8, 0b00000000#8] = .ok (.refC9 258#9) ∧
  -- DEFER at C12: the value 2047 = maxCode + 1
  decodeBytes ⟨12, 2046, true⟩ [0b01111111#8, 0b11110000#8] = .ok (.deferC12 2047#12) ∧
  -- BAD at C10: the value 1023 > maxCode + 1
  decodeBytes ⟨10, 1021, true⟩ [0b11111111#8, 0b11000000#8] = .ok (.badC10 1023#10)

/-- R92, R104: decoding the encoding of a well-formed instruction, in any decoder state in which its row applies, gives it back. -/
def Obligations.DecodeOfEncodeIsIdentity : Prop :=
  ∀ (ctx : DecodeCtx) (i : Instr), i.wf = true → i.applies ctx = true → decodeBytes ctx (encode i) = .ok i

/-- R92, R93, R104: what is decoded from any bytes is well formed, is as long as the width says, stands for exactly the bits read, and
its row applies. -/
def Obligations.DecodedInstructionIsTheCodeRead : Prop :=
  ∀ (ctx : DecodeCtx) (bs : List Byte) (i : Instr), decodeBytes ctx bs = .ok i →
    i.wf = true ∧ i.width = ctx.width ∧ assemble (listBit bs) 0 i.width = some i.code ∧ i.applies ctx = true

/-- R96: in state HASPREV a step at `EOF` carries out R149, and otherwise carries out an instruction whose code is the one read and whose
class is the one the table gives. -/
def Obligations.HeldCodesAreClassified : Prop :=
  ∀ s : State, s.phase = .run → s.startReq = false → s.prev ≠ none → 257 ≤ s.maxCode →
    (∀ t, getCode s.width s = .eof t → step s = execEof t) ∧
    (∀ v t, getCode s.width s = .code v t →
      ∃ i, i.code = v ∧ i.width = s.width ∧ HeldClass s.maxCode v i.cls ∧ step s = exec i t)

/-- R97: the same in state NOPREV, at 9 bits. `maxCode + 1` is a `BADFIRST` there like every other value of 258 or more. -/
def Obligations.FirstCodesAreClassified : Prop :=
  ∀ s : State, s.phase = .run → s.startReq = false → s.prev = none → s.width = 9 →
    (∀ t, getCode s.width s = .eof t → step s = execEof t) ∧
    (∀ v t, getCode s.width s = .code v t →
      ∃ i, i.code = v ∧ i.width = 9 ∧ FreshClass v i.cls ∧ step s = exec i t)

/-- R98, which the spec derives: at widths 9 to 11 the all-ones value is always `BAD`, and while the table is full no value is `DEFER` or
`BAD`. -/
def Obligations.AllOnesIsBadAndFullTableHasNoBad : Prop :=
  (∀ m, 257 ≤ m → m ≤ 2045 →
    ∃ i, decode ⟨widthFor m, m, true⟩ (2 ^ widthFor m - 1) = .ok i ∧ i.cls = .bad) ∧
  (∀ v, v < 4096 → ∃ i, decode ⟨12, 4095, true⟩ v = .ok i ∧ i.cls ≠ .defer ∧ i.cls ≠ .bad)

/-- R153: the value 258 right after a reset is `BADFIRST`, and one code later it is `DEFER`. -/
def Obligations.AsymmetryAfterReset : Prop :=
  ∀ s : State, s.width = 9 → s.maxCode = 257 →
    (s.prev = none → decode (decodeCtx s) 258 = .ok (.badFirstC9 258#9)) ∧
    (s.prev ≠ none → decode (decodeCtx s) 258 = .ok (.deferC9 258#9))

/-! ### The Bit Extractor -/

/-- R121: with enough bits left `GETCODE(W)` gives the sum of the stream bits, first bit most significant, and adds `W` to the cursor.
Nothing but the cursor and its accumulator view changes. -/
def Obligations.GetCodeReadsMsbFirst : Prop :=
  ∀ (W : Nat) (s : State), 9 ≤ W → W ≤ 12 → s.pos + W ≤ 8 * s.len → HostDuty s →
    ∃ a, getCode W s =
      .code (∑ j ∈ Finset.range W, streamBitValue s (s.pos + j) * 2 ^ (W - 1 - j))
        { s with pos := s.pos + W, accum := a }

/-- R122: with fewer bits left than requested `GETCODE(W)` gives `EOF` and leaves the cursor where it is (the spec's decision D4). What is
in the accumulator then is open (U15), so nothing is said of it. -/
def Obligations.GetCodeShortInputIsEof : Prop :=
  ∀ (W : Nat) (s : State), 9 ≤ W → W ≤ 12 → 8 * s.len < s.pos + W →
    ∃ a, getCode W s = .eof { s with accum := a }

/-- R127, the spec's decision D16: a width outside 9 to 12 is refused. -/
def Obligations.GetCodeRefusesOtherWidths : Prop :=
  ∀ (W : Nat) (s : State), ¬(9 ≤ W ∧ W ≤ 12) →
    getCode W s = .widthOutOfRange ∧
    (s.phase = .run → s.startReq = false → s.width = W → step s = .refused .widthOutOfRange)

/-- R92's byte formula, which the spec derives: the code in bytes, a byte beyond the buffer taken as 0. -/
def Obligations.GetCodeByteFormula : Prop :=
  ∀ (W : Nat) (s : State), 9 ≤ W → W ≤ 12 → s.pos + W ≤ 8 * s.len → HostDuty s →
    ∃ a, getCode W s =
      .code
        ((((memRead s (s.pos / 8)).getD 0).toNat * 2 ^ 16 + ((memRead s (s.pos / 8 + 1)).getD 0).toNat * 2 ^ 8 +
            ((memRead s (s.pos / 8 + 2)).getD 0).toNat) / 2 ^ (24 - s.pos % 8 - W) % 2 ^ W)
        { s with pos := s.pos + W, accum := a }

/-- R125, which the spec derives: the accumulator form of `GETCODE` gives the result the cursor form gives, and stays the view of the same
cursor whenever the result is a code. -/
def Obligations.AccumulatorFormAgreesWithCursorForm : Prop :=
  ∀ (W : Nat) (s : State), CursorInv s → 9 ≤ W → W ≤ 12 →
    (∀ v t, getCode W s = .code v t →
      (accumGetCode s W s.accum).1 = some v ∧ t.accum = (accumGetCode s W s.accum).2 ∧ CursorInv t) ∧
    (∀ t, getCode W s = .eof t →
      (accumGetCode s W s.accum).1 = none ∧ t.pos = s.pos ∧ 8 * t.accum.bytePos = t.pos + t.accum.accCnt)

/-- R124, which the spec derives: a call tops up once or twice, holds at most 19 bits, and leaves fewer than 8. -/
def Obligations.AccumulatorStaysSmall : Prop :=
  ∀ (W : Nat) (s : State), CursorInv s → HostDuty s → 9 ≤ W → W ≤ 12 → s.pos + W ≤ 8 * s.len →
    let a := topUp s W 2 s.accum
    (a.bytePos = s.accum.bytePos + 1 ∨ a.bytePos = s.accum.bytePos + 2) ∧
      W ≤ a.accCnt ∧ a.accCnt ≤ W + 7 ∧ a.acc < 2 ^ 19 ∧ (accumGetCode s W s.accum).2.accCnt ≤ 7

/-! ### The codes, one statement per class, every format -/

/-- R143, R276: `CLEAR` resets the dictionary, `maxCode`, the width and `prev`, in either state, and leaves everything else. -/
def Obligations.ClearResets : Prop :=
  ∀ s : State, s.phase = .run →
    (s.width = 9 → ResetsBy .clearC9 s) ∧ (s.width = 10 → ResetsBy .clearC10 s) ∧
    (s.width = 11 → ResetsBy .clearC11 s) ∧ (s.width = 12 → ResetsBy .clearC12 s)

/-- R148: `END` stops the run with `trunc = 0`, in either state, and leaves everything else as it is. -/
def Obligations.EndStopsWithoutTruncation : Prop :=
  ∀ s : State, s.phase = .run →
    (s.width = 9 → exec .endC9 s = .next { s with phase := .done, trunc := false }) ∧
    (s.width = 10 → exec .endC10 s = .next { s with phase := .done, trunc := false }) ∧
    (s.width = 11 → exec .endC11 s = .next { s with phase := .done, trunc := false }) ∧
    (s.width = 12 → exec .endC12 s = .next { s with phase := .done, trunc := false })

/-- R146: `FIRST` emits its byte and records it as the previous sequence; nothing is inserted and nothing else changes. R27 gives the
entry of a literal. -/
def Obligations.FirstEmitsAndRecords : Prop :=
  ∀ (s : State) (b : Byte), s.phase = .run → s.width = 9 → s.prev = none →
    s.dict.read b.toNat = some (ByteSeq.single b) →
    exec (.firstC9 b) s =
      .next { s with out := s.out ++ [b], outCount := s.outCount + 1, prev := some (ByteSeq.single b) }

/-- R147, R240, R243, R252: `BADFIRST` raises `CorruptedStream` with cause 1, the code, and the stream bit at which the code starts, and
changes nothing else. The fault record is the spec's decision D5, that the rule holds at decode start its decision D1, and that the start
is the cursor less the width is read off R140 (notes/assumptions/18.md). -/
def Obligations.BadFirstFaults : Prop :=
  ∀ (s : State) (code : BitVec 9), s.phase = .run → s.width = 9 → s.prev = none → 258 ≤ code.toNat →
    FaultsBy (.badFirstC9 code) s .afterReset code.toNat (s.pos - 9)

/-- R171: `LIT` emits its byte, inserts the previous sequence extended by it, and records it; nothing else changes. The insertion at a
full table is the one the rule names (R182, the spec's decision D2). -/
def Obligations.LitEmitsInsertsRecords : Prop :=
  ∀ (s : State) (b : Byte) (p : ByteSeq), s.phase = .run → s.prev = some p →
    s.dict.read b.toNat = some (ByteSeq.single b) →
    (s.width = 9 → EmitsAndInserts (.litC9 b) s (ByteSeq.single b) (p.snoc b)) ∧
    (s.width = 10 → EmitsAndInserts (.litC10 b) s (ByteSeq.single b) (p.snoc b)) ∧
    (s.width = 11 → EmitsAndInserts (.litC11 b) s (ByteSeq.single b) (p.snoc b)) ∧
    (s.width = 12 → EmitsAndInserts (.litC12 b) s (ByteSeq.single b) (p.snoc b))

/-- R172: `REF` emits its entry, inserts the previous sequence extended by the entry's first byte, and records the entry; nothing else
changes. The insertion at a full table is that of R180 (R182, the spec's decision D2). -/
def Obligations.RefEmitsInsertsRecords : Prop :=
  ∀ (s : State) (p e : ByteSeq), s.phase = .run → s.prev = some p →
    (∀ c : BitVec 9, s.width = 9 → 258 ≤ c.toNat → c.toNat ≤ s.maxCode → s.dict.read c.toNat = some e →
      EmitsAndInserts (.refC9 c) s e (p.snoc e.first)) ∧
    (∀ c : BitVec 10, s.width = 10 → 258 ≤ c.toNat → c.toNat ≤ s.maxCode → s.dict.read c.toNat = some e →
      EmitsAndInserts (.refC10 c) s e (p.snoc e.first)) ∧
    (∀ c : BitVec 11, s.width = 11 → 258 ≤ c.toNat → c.toNat ≤ s.maxCode → s.dict.read c.toNat = some e →
      EmitsAndInserts (.refC11 c) s e (p.snoc e.first)) ∧
    (∀ c : BitVec 12, s.width = 12 → 258 ≤ c.toNat → c.toNat ≤ s.maxCode → s.dict.read c.toNat = some e →
      EmitsAndInserts (.refC12 c) s e (p.snoc e.first))

/-- R173: `DEFER` emits, inserts and records the previous sequence extended by its own first byte; nothing else changes. -/
def Obligations.DeferEmitsInsertsRecords : Prop :=
  ∀ (s : State) (p : ByteSeq), s.phase = .run → s.prev = some p → 257 ≤ s.maxCode →
    (∀ c : BitVec 9, s.width = 9 → c.toNat = s.maxCode + 1 →
      EmitsAndInserts (.deferC9 c) s (p.snoc p.first) (p.snoc p.first)) ∧
    (∀ c : BitVec 10, s.width = 10 → c.toNat = s.maxCode + 1 →
      EmitsAndInserts (.deferC10 c) s (p.snoc p.first) (p.snoc p.first)) ∧
    (∀ c : BitVec 11, s.width = 11 → c.toNat = s.maxCode + 1 →
      EmitsAndInserts (.deferC11 c) s (p.snoc p.first) (p.snoc p.first)) ∧
    (∀ c : BitVec 12, s.width = 12 → c.toNat = s.maxCode + 1 →
      EmitsAndInserts (.deferC12 c) s (p.snoc p.first) (p.snoc p.first))

/-- R174, R241, R243, R252: `BAD` raises `CorruptedStream` with cause 2, the code, and the stream bit at which the code starts, and
changes nothing else. The fault record is the spec's decision D5; the start is notes/assumptions/18.md. -/
def Obligations.BadFaults : Prop :=
  ∀ s : State, s.phase = .run → s.prev ≠ none → 257 ≤ s.maxCode →
    (∀ c : BitVec 9, s.width = 9 → s.maxCode + 1 < c.toNat →
      FaultsBy (.badC9 c) s .outOfRange c.toNat (s.pos - 9)) ∧
    (∀ c : BitVec 10, s.width = 10 → s.maxCode + 1 < c.toNat →
      FaultsBy (.badC10 c) s .outOfRange c.toNat (s.pos - 10)) ∧
    (∀ c : BitVec 11, s.width = 11 → s.maxCode + 1 < c.toNat →
      FaultsBy (.badC11 c) s .outOfRange c.toNat (s.pos - 11)) ∧
    (∀ c : BitVec 12, s.width = 12 → s.maxCode + 1 < c.toNat →
      FaultsBy (.badC12 c) s .outOfRange c.toNat (s.pos - 12))

/-- R175, R242: a lookup of an empty slot at or below `maxCode` raises `CorruptedStream` with cause 3, for every row that looks up. The
spec keeps the case as a guard (D10); `ReservedCauseIsUnreachable` says that no run meets it. -/
def Obligations.EmptySlotRaisesReserved : Prop :=
  ∀ (s : State) (i : Instr), s.phase = .run → i.applies (decodeCtx s) = true →
    (i.cls = .first ∨ i.cls = .lit ∨ i.cls = .ref) → s.dict.read i.code = none →
    FaultsBy i s .reserved i.code (s.pos - i.width)

/-- R180, R181: `Insert` writes the next free slot and no other, raises `maxCode` by one, and raises the width by one when the slot
written has reached `2^width - 2` below 12 bits; with a full table it changes none of them (R182, the spec's decision D2). -/
def Obligations.InsertWritesNextFreeSlot : Prop :=
  ∀ (s : State) (e : ByteSeq), Inserted e s (insertEntry e s) ∧
    insertEntry e s =
      { s with
        maxCode := (insertEntry e s).maxCode
        width := (insertEntry e s).width
        dict := (insertEntry e s).dict }

/-- R31, R181, R189: an insertion keeps the width the one that belongs to `maxCode`, and changes it exactly when it writes slot 510,
1022 or 2046. -/
def Obligations.WidthGrowsAtTheThresholds : Prop :=
  ∀ (s : State) (e : ByteSeq), 257 ≤ s.maxCode → s.maxCode < 4095 → s.width = widthFor s.maxCode →
    (insertEntry e s).width = widthFor (insertEntry e s).maxCode ∧
    ((insertEntry e s).width ≠ s.width ↔ s.maxCode + 1 = 510 ∨ s.maxCode + 1 = 1022 ∨ s.maxCode + 1 = 2046)

/-- R145, which the spec derives: a `CLEAR` right after a `CLEAR` changes nothing, and is read at 9 bits. -/
def Obligations.RepeatedClearChangesNothing : Prop :=
  ∀ (i : Instr) (s t : State), i.cls = .clear → exec i s = .next t → t.width = 9 ∧ exec .clearC9 t = .next t

/-! ### Frames -/

/-- R38, R66: no code touches the input, its length, the cursor or its accumulator; every input position reads as before. -/
def Obligations.CodesLeaveInputAndCursor : Prop :=
  ∀ (i : Instr) (s t : State), exec i s = .next t →
    t.input = s.input ∧ t.len = s.len ∧ t.pos = s.pos ∧ t.accum = s.accum ∧ t.startReq = s.startReq ∧
      ∀ a, memRead t a = memRead s a

/-- R29, R180: a `LIT`, `REF` or `DEFER` leaves every dictionary slot but the next free one alone; a `FIRST`, `END`, `BAD` or
`BADFIRST` leaves every slot alone, and `maxCode` and the width with them. -/
def Obligations.CodesWriteOnlyTheNextSlot : Prop :=
  ∀ (i : Instr) (s t : State), exec i s = .next t →
    ((i.cls = .lit ∨ i.cls = .ref ∨ i.cls = .defer) →
      ∀ a, a ≠ s.maxCode + 1 → t.dict.read a = s.dict.read a) ∧
    ((i.cls = .first ∨ i.cls = .endOfInfo ∨ i.cls = .bad ∨ i.cls = .badFirst) →
      t.maxCode = s.maxCode ∧ t.width = s.width ∧ ∀ a, t.dict.read a = s.dict.read a)

/-- R155, R202: `CLEAR`, `END`, `BAD` and `BADFIRST` emit nothing; `FIRST`, `LIT`, `REF` and `DEFER` touch no status field but
`outCount` unless they raise the exception. -/
def Obligations.EmissionAndStatusFrame : Prop :=
  ∀ (i : Instr) (s t : State), exec i s = .next t →
    ((i.cls = .clear ∨ i.cls = .endOfInfo ∨ i.cls = .bad ∨ i.cls = .badFirst) →
      t.out = s.out ∧ t.outCount = s.outCount) ∧
    ((i.cls = .first ∨ i.cls = .lit ∨ i.cls = .ref ∨ i.cls = .defer ∨ i.cls = .clear) → t.phase ≠ .fault →
      t.phase = s.phase ∧ t.trunc = s.trunc ∧ t.fcause = s.fcause ∧ t.fcode = s.fcode ∧ t.fpos = s.fpos)

/-- R251, R252: a code that faults changes nothing but the phase and the fault record. That the working state is kept after the run's end
is the model's own (U18, notes/assumptions/13.md). -/
def Obligations.FaultsArePrecise : Prop :=
  ∀ (i : Instr) (s t : State), exec i s = .next t → t.phase = .fault →
    t = { s with phase := .fault, fcause := t.fcause, fcode := t.fcode, fpos := t.fpos } ∧
      t.fcause ≠ .noFault ∧ t.fcode = BitVec.ofNat 12 i.code ∧ t.fpos = s.pos - i.width

/-! ### The machine -/

/-- R140: a step of a run in progress carries out the instruction the bits at the cursor decode to, on the state with the cursor past
them. -/
def Obligations.StepRunsTheDecodedCode : Prop :=
  ∀ (s : State) (v : Nat) (i : Instr), s.phase = .run → s.startReq = false →
    s.pos + s.width ≤ 8 * s.len → assemble (streamBit s) s.pos s.width = some v →
    decode (decodeCtx s) v = .ok i →
    step s = exec i { s with pos := s.pos + s.width, accum := (accumGetCode s s.width s.accum).2 }

/-- R149, R246: with fewer bits left than the width the run ends in `DONE` with `trunc = 1` (the spec's decision D3), whatever the state
of the decoder; only the accumulator moves besides, to a value nothing is said of (U15). That the rest of the working state is kept after
the run's end is the model's own (R44, U18, notes/assumptions/13.md). -/
def Obligations.TruncatedStreamStops : Prop :=
  ∀ s : State, s.phase = .run → s.startReq = false → 9 ≤ s.width → s.width ≤ 12 → 8 * s.len < s.pos + s.width →
    ∃ a, step s = .next { s with phase := .done, trunc := true, accum := a }

/-- R34, the spec's decision D3: `trunc` is set only when too few bits are left for a code. -/
def Obligations.TruncOnlyAtEndOfInput : Prop :=
  ∀ s t : State, s.phase = .run → s.trunc = false → step s = .next t → t.trunc = true →
    8 * s.len < s.pos + s.width ∧ t.phase = .done ∧ t.out = s.out

/-- R21, R128: a step of a run adds the width to the cursor, or, at `EOF`, leaves it alone (the spec's decision D4); nothing rewinds it.
-/
def Obligations.CursorOnlyMovesForward : Prop :=
  ∀ s t : State, s.phase = .run → step s = .next t →
    (t.pos = s.pos + s.width ∧ t.pos ≤ 8 * s.len ∧ 9 ≤ s.width ∧ s.width ≤ 12) ∨
    (t.pos = s.pos ∧ t.phase = .done ∧ t.trunc = true)

/-- R207: within a run the output is only ever extended. -/
def Obligations.OutputIsOnlyExtended : Prop :=
  ∀ s t : State, s.phase = .run → step s = .next t → ∃ bs, t.out = s.out ++ bs ∧ t.outCount = s.outCount + bs.length

/-- R204: a step emits at most 3839 bytes. -/
def Obligations.BytesPerStep : Prop :=
  ∀ s t : State, DictInv s → s.phase = .run → step s = .next t →
    s.out.length ≤ t.out.length ∧ t.out.length ≤ s.out.length + 3839

/-- R186: an entry is one byte long below 258, and at most `c - 256` bytes at `c` from there on; `prev` obeys the same bound. -/
def Obligations.EntryLengthsAreBounded : Prop :=
  ∀ s : State, DictInv s →
    (∀ c e, c < 256 → s.dict.read c = some e → e.length = 1) ∧
    (∀ c e, 258 ≤ c → s.dict.read c = some e → 2 ≤ e.length ∧ e.length ≤ c - 256) ∧
    (∀ p, s.prev = some p → 1 ≤ p.length ∧ p.length ≤ 3839)

/-- R188: between two resets `maxCode` and the width never fall, and a step raises each by at most one. -/
def Obligations.MonotoneWithinAnEpoch : Prop :=
  ∀ s t : State, s.phase = .run → step s = .next t →
    (t.maxCode = 257 ∧ t.width = 9 ∧ t.prev = none) ∨
    (s.maxCode ≤ t.maxCode ∧ t.maxCode ≤ s.maxCode + 1 ∧ s.width ≤ t.width ∧ t.width ≤ s.width + 1)

/-- R292: the entry a code has just inserted can be referenced by the very next code. -/
def Obligations.NewEntryIsVisibleToTheNextCode : Prop :=
  ∀ (i : Instr) (s t : State), DictInv s → s.maxCode < 4095 → (i.cls = .lit ∨ i.cls = .ref ∨ i.cls = .defer) →
    exec i s = .next t →
    ∃ j, decode (decodeCtx t) t.maxCode = .ok j ∧ j.cls = .ref ∧ t.maxCode = s.maxCode + 1 ∧
      ∃ e, lookup t t.maxCode = some e

/-- R217, R277, the spec's decision D6: START, outside a run, sets every field to its decode-start value and keeps the input. That it does
so in the step after the host issues it is notes/assumptions/5.md. -/
def Obligations.StartSetsDecodeStartValues : Prop :=
  ∀ s : State, s.phase ≠ .run → s.startReq = true →
    ∃ t, step s = .next t ∧
      t = { input := s.input, len := s.len, pos := 0, accum := ⟨0, 0, 0⟩, width := 9, maxCode := 257, prev := none,
            dict := t.dict, out := [], outCount := 0, phase := .run, trunc := false, fcause := .noFault, fcode := 0,
            fpos := 0, startReq := false } ∧
      (∀ c, c < 256 → t.dict.read c = some (ByteSeq.single (BitVec.ofNat 8 c))) ∧
      (∀ c, 256 ≤ c → t.dict.read c = none)

/-- R218, R219, R255, the spec's decision D6: `DONE` and `FAULT` are stable until START, and START during a run has no step. That the step
which passes meanwhile answers the same state, in `IDLE` too, is read off the spec (notes/assumptions/7.md), and that it keeps the working
state, which the spec says is discarded after a run (R44, R281), is the model's choice (notes/assumptions/13.md). -/
def Obligations.PhasesAreStableUntilStart : Prop :=
  ∀ s : State,
    (s.phase ≠ .run → s.startReq = false → step s = .next s) ∧
    (s.phase = .run → s.startReq = true → step s = .refused .startDuringRun)

/-- R218, the spec's decision D6: the only changes of phase are into `RUN` by START and out of it into `DONE` or `FAULT`. That a START
issued is taken by the next step is notes/assumptions/5.md. -/
def Obligations.PhaseTransitions : Prop :=
  ∀ s t : State, step s = .next t →
    t.phase = s.phase ∨
    (s.phase ≠ .run ∧ s.startReq = true ∧ t.phase = .run) ∨
    (s.phase = .run ∧ (t.phase = .done ∨ t.phase = .fault))

/-- R37, R224, R226, the spec's decisions D6, D13 and D21: the host-readable registers. `phase`, the reserved bits and `LEN` can be read at
any moment, the other fields once a run has ended and until the next START (in `RUN` they are not to be relied on). From START on `phase`
reads RUN; that there is a step between START and its taking is the model's own (notes/assumptions/5.md). -/
def Obligations.StatusRegisterLayout : Prop :=
  ∀ s : State,
    hostRead 4 s = some s.len ∧ (∀ n, 5 ≤ n → hostRead n s = none) ∧
    (s.phase = .run ∨ s.startReq = false →
      ∃ n, hostRead 0 s = some n ∧ n % 4 = s.phase.num.toNat ∧ n / 32 = 0) ∧
    (s.startReq = true → ∃ n, hostRead 0 s = some n ∧ n % 4 = 1 ∧ n / 32 = 0) ∧
    ((s.phase = .done ∨ s.phase = .fault) → s.startReq = false →
      hostRead 0 s = some (s.phase.num.toNat + 4 * s.trunc.toNat + 8 * s.fcause.num.toNat) ∧
      hostRead 1 s = some s.fcode.toNat ∧ hostRead 2 s = some s.fpos ∧ hostRead 3 s = some s.outCount)

/-- R223, R225, R226, R282, the spec's decisions D6 and D15: before START the host places an input, which `MemRead` then answers from, and
issues START, upon which it reads `phase = RUN` and has no result of an earlier run; from START on, the step not yet taken included, it can
neither prepare nor start. The step between START and its taking is the model's (notes/assumptions/5.md). So is the clause that every
register reads then as it stands at decode start: in `RUN` the spec lets the host rely on none but `phase` of the status fields (R224, U19),
and that the others answer at all is the model's choice (notes/assumptions/21.md). -/
def Obligations.HostPreparesAndStarts : Prop :=
  ∀ (s : State) (bytes : List Byte),
    (s.phase ≠ .run → s.startReq = false →
      ∃ t, hostPrepare bytes s = .next t ∧ t = { s with input := t.input, len := bytes.length } ∧
        (∀ k, memRead t k = bytes[k]?) ∧
        ∃ u, hostStart t = .next u ∧ step u = .next (start t) ∧
          (∃ n, hostRead 0 u = some n ∧ n % 4 = 1) ∧ hostResult u = none ∧ (∀ n, hostRead n u = hostRead n (start t)) ∧
          ∀ other, hostPrepare other u = .refused .inputChangeDuringRun ∧ hostStart u = .refused .startDuringRun) ∧
    (s.phase = .run ∨ s.startReq = true →
      hostPrepare bytes s = .refused .inputChangeDuringRun ∧ hostStart s = .refused .startDuringRun)

/-! ### Invariants, and what the whole machine promises -/

/-- R33, R40: after power-up the phase is `IDLE`. That the other fields meet the invariants is the model's choice of power-up values
(notes/assumptions/3.md). -/
def Obligations.PowerUpMeetsTheInvariants : Prop :=
  State.reset.phase = .idle ∧ DictInv State.reset ∧ CursorInv State.reset ∧ StatusInv State.reset ∧
    StoresWf State.reset ∧ HostDuty State.reset

/-- R24, R27 to R29, R31, R41, R42, R103: every step keeps what holds of the dictionary, `maxCode`, the width and `prev`. After a run's end,
where the spec discards them, that is the model's own (notes/assumptions/13.md). -/
def Obligations.StepKeepsDictionaryInvariant : Prop :=
  ∀ s t : State, DictInv s → step s = .next t → DictInv t

/-- R21, R22, R125: every step keeps the cursor inside the input and the accumulator the view of the same cursor, as long as a run is in
progress. -/
def Obligations.StepKeepsCursorInvariant : Prop :=
  ∀ s t : State, (s.phase = .run → CursorInv s) → step s = .next t → (t.phase = .run → CursorInv t)

/-- R34 to R36: every step keeps what holds of the status record. -/
def Obligations.StepKeepsStatusInvariant : Prop :=
  ∀ s t : State, StatusInv s → step s = .next t → StatusInv t

/-- The model's own: every step keeps both stores in canonical form, so that equal contents are equal data (notes/assumptions/19.md). -/
def Obligations.StepKeepsStoresCanonical : Prop :=
  ∀ s t : State, StoresWf s → step s = .next t → StoresWf t

/-- R175, R242: the guard's cause 3 is never raised from a state that meets the dictionary invariant. -/
def Obligations.ReservedCauseIsUnreachable : Prop :=
  ∀ s t : State, DictInv s → s.phase = .run → s.fcause ≠ .reserved → step s = .next t → t.fcause ≠ .reserved

/-- R301, the spec's decision D20: every step can be taken, as long as the host keeps its duties. -/
def Obligations.EveryStepCanBeTaken : Prop :=
  ∀ s : State, DictInv s → HostDuty s → ∃ t, step s = .next t

/-- R152: a run from decode start ends after at most `(8·LEN) div 9 + 1` code steps. -/
def Obligations.EveryRunEnds : Prop :=
  ∀ s : State, HostDuty s →
    ∃ t, Host.Core.run Sys2Proof.core (8 * s.len / 9 + 1) (start s) = .next t ∧ (t.phase = .done ∨ t.phase = .fault)

/-- R215, R216: `decode` is total: it answers with the bytes and the flag, or with the one error and cause 1 or 2 (the shape of the answer
is the spec's decisions D3 and D13; cause 3 is R175's dead guard). -/
def Obligations.DecodeIsTotal : Prop :=
  ∀ bytes : List Byte,
    (∃ out trunc, decodeStream bytes = some (.ok out trunc)) ∨
    (∃ cause code at_ out, decodeStream bytes = some (.error cause code at_ out) ∧
      (cause = .afterReset ∨ cause = .outOfRange))

/-- R68, R102: a step depends on no input byte but those its code stands in; two inputs that agree there step alike. -/
def Obligations.StepReadsOnlyItsCode : Prop :=
  ∀ (s t : State) (m : Memory), s.phase = .run → CursorInv s →
    (∀ k, s.pos / 8 ≤ k → k ≤ (s.pos + s.width - 1) / 8 → m.read k = s.input.read k) →
    step s = .next t → step { s with input := m } = .next { t with input := m }

/-- The model's own convention, notes/assumptions/17.md: a table word placed by `withFetchWord` at power-up is what the very next step
carries out. -/
def Obligations.FetchWordIsRunNext : Prop :=
  ∀ (nbits w : Nat) (i : Instr), decodeTableWord nbits w = some i →
    ∃ t, step (State.reset.withFetchWord nbits w) = exec i t ∧ t.phase = .run ∧ t.pos = i.width ∧
      i.applies (decodeCtx t) = true
end

