-- ==== Sys2Proof/Laws/Decode.lean ====
section
/-!
SUPPORT. What decoding a code value can answer, and the basic facts of assembling one.
-/

namespace Sys2Proof

/-- R95: the dynamic codes are those from 258 up. -/
@[simp] theorem dynamicCode_iff {c : Nat} : dynamicCode c = true ↔ 258 ≤ c := decide_eq_true_iff

/-- R90: a format's length is 9 to 12. -/
theorem Format.bits_range (f : Format) : 9 ≤ f.bits ∧ f.bits ≤ 12 := by cases f <;> decide

/-- R90, R93: a width selects the format of that length. -/
theorem Format.ofWidth_eq_some {w : Nat} {f : Format} : Format.ofWidth w = some f ↔ f.bits = w := by
  unfold Format.ofWidth
  constructor
  · intro h
    split_ifs at h <;> (cases h; subst_vars; rfl)
  · rintro rfl
    cases f <;> rfl

/-- R127: no format has a length outside 9 to 12. -/
theorem Format.ofWidth_eq_none {w : Nat} : Format.ofWidth w = none ↔ ¬(9 ≤ w ∧ w ≤ 12) := by
  unfold Format.ofWidth
  split_ifs <;> simp <;> omega

/-- R90: a width of 9 to 12 has a format. -/
theorem Format.ofWidth_total {w : Nat} (h : 9 ≤ w ∧ w ≤ 12) : ∃ f, Format.ofWidth w = some f ∧ f.bits = w := by
  cases e : Format.ofWidth w with
  | none => exact absurd h (Format.ofWidth_eq_none.1 e)
  | some f => exact ⟨f, rfl, Format.ofWidth_eq_some.1 e⟩

/-- R90: an instruction is 9 to 12 bits long. -/
theorem Instr.width_range (i : Instr) : 9 ≤ i.width ∧ i.width ≤ 12 := i.format.bits_range

theorem assemble_succ (bit : Nat → Option Bool) (p n : Nat) :
    assemble bit p (n + 1) =
      match assemble bit p n, bit (p + n) with
      | some v, some b => some (2 * v + b.toNat)
      | _, _ => none := rfl

/-- What one more bit adds. -/
theorem assemble_succ_some {bit : Nat → Option Bool} {p n v : Nat} (h : assemble bit p (n + 1) = some v) :
    ∃ u b, assemble bit p n = some u ∧ bit (p + n) = some b ∧ v = 2 * u + b.toNat := by
  rw [assemble_succ] at h
  cases hu : assemble bit p n with
  | none => simp [hu] at h
  | some u =>
    cases hb : bit (p + n) with
    | none => simp [hu, hb] at h
    | some b => exact ⟨u, b, rfl, rfl, by simpa [hu, hb] using h.symm⟩

/-- R91: a code fits its field. -/
theorem assemble_lt {bit : Nat → Option Bool} {p n v : Nat} (h : assemble bit p n = some v) : v < 2 ^ n := by
  induction n generalizing v with
  | zero => simp [assemble] at h; omega
  | succ n ih =>
    obtain ⟨u, b, hu, -, rfl⟩ := assemble_succ_some h
    have := ih hu
    have : b.toNat ≤ 1 := Bool.toNat_le b
    rw [Nat.pow_succ]; omega

/-- A code can be assembled exactly when its bits are there. -/
theorem assemble_isSome {bit : Nat → Option Bool} {p n : Nat} :
    (∃ v, assemble bit p n = some v) ↔ ∀ j, j < n → ∃ b, bit (p + j) = some b := by
  induction n with
  | zero => simp [assemble]
  | succ n ih =>
    constructor
    · rintro ⟨v, h⟩ j hj
      obtain ⟨u, b, hu, hb, -⟩ := assemble_succ_some h
      rcases Nat.lt_succ_iff_lt_or_eq.1 hj with h1 | rfl
      · exact ih.1 ⟨u, hu⟩ j h1
      · exact ⟨b, hb⟩
    · intro h
      obtain ⟨u, hu⟩ := ih.2 fun j hj => h j (by omega)
      obtain ⟨b, hb⟩ := h n (by omega)
      exact ⟨2 * u + b.toNat, by rw [assemble_succ, hu, hb]⟩

/-- A code depends on its own bits only. -/
theorem assemble_congr {bit bit' : Nat → Option Bool} {p q n : Nat}
    (h : ∀ j, j < n → bit (p + j) = bit' (q + j)) : assemble bit p n = assemble bit' q n := by
  induction n with
  | zero => rfl
  | succ n ih =>
    rw [assemble_succ, assemble_succ, ih fun j hj => h j (by omega), h n (by omega)]

/-- A code in two parts: the first bits are the more significant ones. -/
theorem assemble_append {bit : Nat → Option Bool} {p m n u v : Nat}
    (hu : assemble bit p m = some u) (hv : assemble bit (p + m) n = some v) :
    assemble bit p (m + n) = some (u * 2 ^ n + v) := by
  induction n generalizing v with
  | zero => simp [assemble] at hv; simp [hu, ← hv]
  | succ n ih =>
    obtain ⟨w, b, hw, hb, rfl⟩ := assemble_succ_some hv
    rw [← Nat.add_assoc, assemble_succ, ih hw, ← Nat.add_assoc, hb]
    simp [Nat.pow_succ]; ring

/-- R92: the laid-out code of a format is read back, for every value, in blocks of 64 values. -/
theorem assemble_layout_block (f : Format) :
    ∀ a < 2 ^ (f.bits - 6), ∀ b < 64, assemble (listBit (layout f.bits (64 * a + b))) 0 f.bits = some (64 * a + b) := by
  cases f <;> decide +kernel

/-- R92: a laid-out code is read back. -/
theorem assemble_layout {f : Format} {v : Nat} (h : v < 2 ^ f.bits) :
    assemble (listBit (layout f.bits v)) 0 f.bits = some v := by
  have hd := assemble_layout_block f (v / 64)
    (Nat.div_lt_of_lt_mul (by rw [show 64 = 2 ^ 6 from rfl, ← Nat.pow_add]; cases f <;> exact h))
    (v % 64) (Nat.mod_lt _ (by decide))
  rwa [Nat.div_add_mod] at hd

/-- R96, R97: everything a decoded code value is. -/
theorem decode_spec {ctx : DecodeCtx} {v : Nat} {i : Instr} (h : decode ctx v = .ok i)
    (hv : v < 2 ^ ctx.width) :
    i.width = ctx.width ∧ i.code = v ∧ i.cls = classOf ctx v := by
  unfold decode at h
  cases hf : Format.ofWidth ctx.width with
  | none => simp [hf] at h
  | some f =>
    have hw := Format.ofWidth_eq_some.1 hf
    rw [← hw] at hv
    simp only [hf] at h
    have key : i.width = f.bits ∧ i.code = v ∧ i.cls = classOf ctx v := by
      have hlit : classOf ctx v = .lit ∨ classOf ctx v = .first → v < 256 := by
        unfold classOf; split_ifs <;> simp_all
      have hclear : classOf ctx v = .clear → v = 256 := by
        unfold classOf; split_ifs <;> simp_all
      have hend : classOf ctx v = .endOfInfo → v = 257 := by
        unfold classOf; split_ifs <;> simp_all
      generalize classOf ctx v = c at h hlit hclear hend
      cases f <;> cases c <;> simp only [rowOf] at h <;> first
        | cases h; done
        | injection h with h
          subst h
          simp only [Instr.width, Instr.format, Instr.cls, Instr.code, Format.bits, BitVec.toNat_ofNat] at hv ⊢
          simp at hlit hclear hend ⊢
          omega
    rwa [hw] at key

/-- R96, R97, R104: a class's row applies in the state it was found in. -/
theorem classOf_rowWhen (ctx : DecodeCtx) (v : Nat) : rowWhen ctx v (classOf ctx v) = true := by
  unfold classOf
  split_ifs <;> simp_all [rowWhen, dynamicCode] <;> omega

/-- R104: a decoded instruction's row applies. -/
theorem decode_applies {ctx : DecodeCtx} {v : Nat} {i : Instr} (h : decode ctx v = .ok i)
    (hv : v < 2 ^ ctx.width) : i.applies ctx = true := by
  obtain ⟨hw, hc, hcls⟩ := decode_spec h hv
  simp [Instr.applies, hw, hc, hcls, classOf_rowWhen]

/-- R96, R97, R103: every code value has a row at a width of 9 to 12, but for NOPREV above 9. -/
theorem decode_total {ctx : DecodeCtx} (v : Nat) (hw : 9 ≤ ctx.width ∧ ctx.width ≤ 12)
    (hn : ctx.held = false → ctx.width = 9) : ∃ i, decode ctx v = .ok i := by
  obtain ⟨f, hf, hb⟩ := Format.ofWidth_total hw
  unfold decode
  rw [hf]
  have hfresh : (classOf ctx v = .first ∨ classOf ctx v = .badFirst) → f = .c9 := by
    intro h
    have : ctx.held = false := by
      unfold classOf at h; split_ifs at h <;> simp_all
    have := hn this
    cases f <;> simp_all [Format.bits]
  generalize classOf ctx v = c at hfresh
  cases f <;> cases c <;> simp [rowOf] <;> simp at hfresh

end Sys2Proof
end

