-- ==== Sys2Proof/Laws/Sparse.lean ====
section
/-!
SUPPORT. The laws of sparse storage: read after write, and that a write keeps the canonical form.
-/

namespace Sys2Proof.Machine

variable {α : Type}

@[simp] theorem Sparse.read_nil (a : Nat) : Sparse.read ([] : List (Nat × α)) a = none := rfl

theorem Sparse.read_cons (k : Nat) (v : α) (m : List (Nat × α)) (a : Nat) :
    Sparse.read ((k, v) :: m) a = if k = a then some v else Sparse.read m a := rfl

theorem Sparse.write_cons (k : Nat) (v : α) (m : List (Nat × α)) (a : Nat) (x : α) :
    Sparse.write ((k, v) :: m) a x =
      if a < k then (a, x) :: (k, v) :: m else if a = k then (a, x) :: m else (k, v) :: Sparse.write m a x := rfl

/-- A read at the place just written gives the value written. -/
@[simp] theorem Sparse.read_write_same (m : List (Nat × α)) (a : Nat) (x : α) :
    Sparse.read (Sparse.write m a x) a = some x := by
  induction m with
  | nil => simp [Sparse.write, Sparse.read]
  | cons p m ih =>
    obtain ⟨k, v⟩ := p
    rw [Sparse.write_cons]
    split_ifs with h1 h2
    · simp [Sparse.read_cons]
    · simp [Sparse.read_cons]
    · rw [Sparse.read_cons, if_neg (Ne.symm h2), ih]

/-- A write leaves every other place alone. -/
theorem Sparse.read_write_other (m : List (Nat × α)) {a b : Nat} (x : α) (h : b ≠ a) :
    Sparse.read (Sparse.write m a x) b = Sparse.read m b := by
  induction m with
  | nil => simp [Sparse.write, Sparse.read, h.symm]
  | cons p m ih =>
    obtain ⟨k, v⟩ := p
    rw [Sparse.write_cons]
    split_ifs with h1 h2
    · rw [Sparse.read_cons, if_neg h.symm]
    · subst h2
      rw [Sparse.read_cons, if_neg h.symm, Sparse.read_cons, if_neg h.symm]
    · rw [Sparse.read_cons, ih, Sparse.read_cons]

theorem Sparse.mem_write {m : List (Nat × α)} {a : Nat} {x : α} {p : Nat × α}
    (h : p ∈ Sparse.write m a x) : p.1 = a ∨ p ∈ m := by
  induction m with
  | nil => simp [Sparse.write] at h; simp [h]
  | cons q m ih =>
    obtain ⟨k, v⟩ := q
    rw [Sparse.write_cons] at h
    split_ifs at h with h1 h2
    · rcases List.mem_cons.1 h with rfl | h
      · exact .inl rfl
      · exact .inr h
    · rcases List.mem_cons.1 h with rfl | h
      · exact .inl rfl
      · exact .inr (List.mem_cons_of_mem _ h)
    · rcases List.mem_cons.1 h with rfl | h
      · exact .inr List.mem_cons_self
      · exact (ih h).imp_right (List.mem_cons_of_mem _)

/-- A write keeps the canonical form. -/
theorem Sparse.wf_write {m : List (Nat × α)} (h : Sparse.wf m) (a : Nat) (x : α) :
    Sparse.wf (Sparse.write m a x) := by
  induction m with
  | nil => simp [Sparse.write, Sparse.wf]
  | cons q m ih =>
    obtain ⟨k, v⟩ := q
    obtain ⟨hk, hm⟩ := List.pairwise_cons.1 h
    rw [Sparse.write_cons]
    split_ifs with h1 h2
    · refine List.pairwise_cons.2 ⟨fun p hp => ?_, h⟩
      rcases List.mem_cons.1 hp with rfl | hp
      · exact h1
      · exact h1.trans (hk p hp)
    · subst h2
      exact List.pairwise_cons.2 ⟨hk, hm⟩
    · refine List.pairwise_cons.2 ⟨fun p hp => ?_, ih hm⟩
      rcases Sparse.mem_write hp with e | hp
      · simp only [e]; omega
      · exact hk p hp

/-- What a table indexed by its own position holds. -/
theorem Sparse.read_range_map (f : Nat → α) (n a : Nat) :
    Sparse.read ((List.range n).map fun i => (i, f i)) a = if a < n then some (f a) else none := by
  suffices h : ∀ k, Sparse.read ((List.range' k n).map fun i => (i, f i)) a =
      if k ≤ a ∧ a < k + n then some (f a) else none by
    have := h 0
    rw [← List.range_eq_range'] at this
    simpa using this
  intro k
  induction n generalizing k with
  | zero => rw [if_neg (by omega)]; rfl
  | succ n ih =>
    rw [List.range'_succ, List.map_cons, Sparse.read_cons, ih]
    split_ifs <;> first | omega | simp_all

@[simp] theorem Memory.read_write_same (m : Memory) (a : Nat) (b : Byte) : (m.write a b).read a = some b :=
  Sparse.read_write_same m a b

theorem Memory.read_write_other (m : Memory) {a k : Nat} (b : Byte) (h : k ≠ a) :
    (m.write a b).read k = m.read k := Sparse.read_write_other m b h

/-- The host's store keeps the canonical form of the input space. -/
theorem Memory.wf_write {m : Memory} (h : m.wf) (a : Nat) (b : Byte) : (m.write a b).wf := Sparse.wf_write h a b

theorem Memory.ofBytesFrom_keys {k : Nat} {bs : List Byte} {p : Host.Cell}
    (h : p ∈ Memory.ofBytesFrom k bs) : k ≤ p.1 := by
  induction bs generalizing k with
  | nil => simp [Memory.ofBytesFrom] at h
  | cons b bs ih =>
    rcases List.mem_cons.1 h with rfl | h
    · exact le_rfl
    · exact (Nat.le_succ k).trans (ih h)

/-- A band placed by the host is in canonical form. -/
theorem Memory.wf_ofBytesFrom (k : Nat) (bs : List Byte) : (Memory.ofBytesFrom k bs).wf := by
  induction bs generalizing k with
  | nil => exact List.Pairwise.nil
  | cons b bs ih =>
    exact List.pairwise_cons.2 ⟨fun p hp => Memory.ofBytesFrom_keys hp, ih (k + 1)⟩

/-- R61: what a placed band holds. -/
theorem Memory.read_ofBytesFrom (k : Nat) (bs : List Byte) (i : Nat) :
    (Memory.ofBytesFrom k bs).read (k + i) = bs[i]? := by
  induction bs generalizing k i with
  | nil => rfl
  | cons b bs ih =>
    unfold Memory.read Memory.ofBytesFrom
    rw [Sparse.read_cons]
    cases i with
    | zero => simp
    | succ i =>
      rw [if_neg (by omega)]
      have := ih (k + 1) i
      rw [show k + 1 + i = k + (i + 1) by omega] at this
      exact this

/-- Placing one bit keeps the canonical form. -/
theorem Memory.wf_setBit {m : Memory} (h : m.wf) (i : Nat) (v : Bool) : (m.setBit i v).wf :=
  Memory.wf_write h _ _

/-- Placing a code keeps the canonical form. -/
theorem Memory.wf_setBits (p n w : Nat) {m : Memory} (h : m.wf) : (Memory.setBits p n w m).wf := by
  induction n generalizing w m with
  | zero => exact h
  | succ n ih => exact ih _ (Memory.wf_setBit h _ _)

@[simp] theorem Dictionary.read_write_same (d : Dictionary) (i : Nat) (e : ByteSeq) :
    (d.write i e).read i = some e := Sparse.read_write_same d i e

theorem Dictionary.read_write_other (d : Dictionary) {i j : Nat} (e : ByteSeq) (h : j ≠ i) :
    (d.write i e).read j = d.read j := Sparse.read_write_other d e h

/-- An insertion keeps the canonical form of the dictionary space. -/
theorem Dictionary.wf_write {d : Dictionary} (h : d.wf) (i : Nat) (e : ByteSeq) : (d.write i e).wf :=
  Sparse.wf_write h i e

/-- R40: what the dictionary holds after a reset. -/
theorem literalEntries_read (c : Nat) :
    Dictionary.read literalEntries c = if c < 256 then some (ByteSeq.single (BitVec.ofNat 8 c)) else none :=
  Sparse.read_range_map _ 256 c

/-- The dictionary after a reset is in canonical form. -/
theorem literalEntries_wf : Dictionary.wf literalEntries := by
  unfold Dictionary.wf Sparse.wf literalEntries
  rw [List.pairwise_map]
  exact List.pairwise_lt_range

end Sys2Proof.Machine
end

