-- ==== Sys2Proof/Laws/State.lean ====
section
/-!
SUPPORT. One lemma per field per state update, so that no later proof unfolds an update.
-/

namespace Sys2Proof

/-! ### Byte sequences (R14) -/

@[simp] theorem ByteSeq.length_toList (e : ByteSeq) : e.toList.length = e.length := by
  simp [ByteSeq.toList, ByteSeq.length]

@[simp] theorem ByteSeq.toList_single (b : Byte) : (ByteSeq.single b).toList = [b] := rfl

@[simp] theorem ByteSeq.length_single (b : Byte) : (ByteSeq.single b).length = 1 := rfl

@[simp] theorem ByteSeq.length_snoc (e : ByteSeq) (b : Byte) : (e.snoc b).length = e.length + 1 := by
  simp [ByteSeq.snoc, ByteSeq.length]

@[simp] theorem ByteSeq.toList_snoc (e : ByteSeq) (b : Byte) : (e.snoc b).toList = e.toList ++ [b] := rfl

@[simp] theorem ByteSeq.first_single (b : Byte) : (ByteSeq.single b).first = b := rfl

@[simp] theorem ByteSeq.first_snoc (e : ByteSeq) (b : Byte) : (e.snoc b).first = e.first := rfl

end Sys2Proof

namespace Sys2Proof.Machine

/-! ### `Reset()` (R276) -/

@[simp] theorem resetDictionary_input (s : State) : (resetDictionary s).input = s.input := rfl
@[simp] theorem resetDictionary_len (s : State) : (resetDictionary s).len = s.len := rfl
@[simp] theorem resetDictionary_pos (s : State) : (resetDictionary s).pos = s.pos := rfl
@[simp] theorem resetDictionary_accum (s : State) : (resetDictionary s).accum = s.accum := rfl
@[simp] theorem resetDictionary_width (s : State) : (resetDictionary s).width = 9 := rfl
@[simp] theorem resetDictionary_maxCode (s : State) : (resetDictionary s).maxCode = 257 := rfl
@[simp] theorem resetDictionary_prev (s : State) : (resetDictionary s).prev = none := rfl
@[simp] theorem resetDictionary_dict (s : State) : (resetDictionary s).dict = literalEntries := rfl
@[simp] theorem resetDictionary_out (s : State) : (resetDictionary s).out = s.out := rfl
@[simp] theorem resetDictionary_outCount (s : State) : (resetDictionary s).outCount = s.outCount := rfl
@[simp] theorem resetDictionary_phase (s : State) : (resetDictionary s).phase = s.phase := rfl
@[simp] theorem resetDictionary_trunc (s : State) : (resetDictionary s).trunc = s.trunc := rfl
@[simp] theorem resetDictionary_fcause (s : State) : (resetDictionary s).fcause = s.fcause := rfl
@[simp] theorem resetDictionary_fcode (s : State) : (resetDictionary s).fcode = s.fcode := rfl
@[simp] theorem resetDictionary_fpos (s : State) : (resetDictionary s).fpos = s.fpos := rfl
@[simp] theorem resetDictionary_startReq (s : State) : (resetDictionary s).startReq = s.startReq := rfl

/-! ### `OutPush` (R200) -/

@[simp] theorem outPush_input (b : Byte) (s : State) : (outPush b s).input = s.input := rfl
@[simp] theorem outPush_len (b : Byte) (s : State) : (outPush b s).len = s.len := rfl
@[simp] theorem outPush_pos (b : Byte) (s : State) : (outPush b s).pos = s.pos := rfl
@[simp] theorem outPush_accum (b : Byte) (s : State) : (outPush b s).accum = s.accum := rfl
@[simp] theorem outPush_width (b : Byte) (s : State) : (outPush b s).width = s.width := rfl
@[simp] theorem outPush_maxCode (b : Byte) (s : State) : (outPush b s).maxCode = s.maxCode := rfl
@[simp] theorem outPush_prev (b : Byte) (s : State) : (outPush b s).prev = s.prev := rfl
@[simp] theorem outPush_dict (b : Byte) (s : State) : (outPush b s).dict = s.dict := rfl
@[simp] theorem outPush_out (b : Byte) (s : State) : (outPush b s).out = s.out ++ [b] := rfl
@[simp] theorem outPush_outCount (b : Byte) (s : State) : (outPush b s).outCount = s.outCount + 1 := rfl
@[simp] theorem outPush_phase (b : Byte) (s : State) : (outPush b s).phase = s.phase := rfl
@[simp] theorem outPush_trunc (b : Byte) (s : State) : (outPush b s).trunc = s.trunc := rfl
@[simp] theorem outPush_fcause (b : Byte) (s : State) : (outPush b s).fcause = s.fcause := rfl
@[simp] theorem outPush_fcode (b : Byte) (s : State) : (outPush b s).fcode = s.fcode := rfl
@[simp] theorem outPush_fpos (b : Byte) (s : State) : (outPush b s).fpos = s.fpos := rfl
@[simp] theorem outPush_startReq (b : Byte) (s : State) : (outPush b s).startReq = s.startReq := rfl

/-! ### `prev <- e` (R15) -/

@[simp] theorem setPrev_input (e : ByteSeq) (s : State) : (setPrev e s).input = s.input := rfl
@[simp] theorem setPrev_len (e : ByteSeq) (s : State) : (setPrev e s).len = s.len := rfl
@[simp] theorem setPrev_pos (e : ByteSeq) (s : State) : (setPrev e s).pos = s.pos := rfl
@[simp] theorem setPrev_accum (e : ByteSeq) (s : State) : (setPrev e s).accum = s.accum := rfl
@[simp] theorem setPrev_width (e : ByteSeq) (s : State) : (setPrev e s).width = s.width := rfl
@[simp] theorem setPrev_maxCode (e : ByteSeq) (s : State) : (setPrev e s).maxCode = s.maxCode := rfl
@[simp] theorem setPrev_prev (e : ByteSeq) (s : State) : (setPrev e s).prev = some e := rfl
@[simp] theorem setPrev_dict (e : ByteSeq) (s : State) : (setPrev e s).dict = s.dict := rfl
@[simp] theorem setPrev_out (e : ByteSeq) (s : State) : (setPrev e s).out = s.out := rfl
@[simp] theorem setPrev_outCount (e : ByteSeq) (s : State) : (setPrev e s).outCount = s.outCount := rfl
@[simp] theorem setPrev_phase (e : ByteSeq) (s : State) : (setPrev e s).phase = s.phase := rfl
@[simp] theorem setPrev_trunc (e : ByteSeq) (s : State) : (setPrev e s).trunc = s.trunc := rfl
@[simp] theorem setPrev_fcause (e : ByteSeq) (s : State) : (setPrev e s).fcause = s.fcause := rfl
@[simp] theorem setPrev_fcode (e : ByteSeq) (s : State) : (setPrev e s).fcode = s.fcode := rfl
@[simp] theorem setPrev_fpos (e : ByteSeq) (s : State) : (setPrev e s).fpos = s.fpos := rfl
@[simp] theorem setPrev_startReq (e : ByteSeq) (s : State) : (setPrev e s).startReq = s.startReq := rfl

/-! ### `stop` (R17) -/

@[simp] theorem stop_input (v : Bool) (s : State) : (stop v s).input = s.input := rfl
@[simp] theorem stop_len (v : Bool) (s : State) : (stop v s).len = s.len := rfl
@[simp] theorem stop_pos (v : Bool) (s : State) : (stop v s).pos = s.pos := rfl
@[simp] theorem stop_accum (v : Bool) (s : State) : (stop v s).accum = s.accum := rfl
@[simp] theorem stop_width (v : Bool) (s : State) : (stop v s).width = s.width := rfl
@[simp] theorem stop_maxCode (v : Bool) (s : State) : (stop v s).maxCode = s.maxCode := rfl
@[simp] theorem stop_prev (v : Bool) (s : State) : (stop v s).prev = s.prev := rfl
@[simp] theorem stop_dict (v : Bool) (s : State) : (stop v s).dict = s.dict := rfl
@[simp] theorem stop_out (v : Bool) (s : State) : (stop v s).out = s.out := rfl
@[simp] theorem stop_outCount (v : Bool) (s : State) : (stop v s).outCount = s.outCount := rfl
@[simp] theorem stop_phase (v : Bool) (s : State) : (stop v s).phase = .done := rfl
@[simp] theorem stop_trunc (v : Bool) (s : State) : (stop v s).trunc = v := rfl
@[simp] theorem stop_fcause (v : Bool) (s : State) : (stop v s).fcause = s.fcause := rfl
@[simp] theorem stop_fcode (v : Bool) (s : State) : (stop v s).fcode = s.fcode := rfl
@[simp] theorem stop_fpos (v : Bool) (s : State) : (stop v s).fpos = s.fpos := rfl
@[simp] theorem stop_startReq (v : Bool) (s : State) : (stop v s).startReq = s.startReq := rfl

/-! ### The exception (R243, R252) -/

@[simp] theorem raise_input (c : Cause) (k p : Nat) (s : State) : (raise c k p s).input = s.input := rfl
@[simp] theorem raise_len (c : Cause) (k p : Nat) (s : State) : (raise c k p s).len = s.len := rfl
@[simp] theorem raise_pos (c : Cause) (k p : Nat) (s : State) : (raise c k p s).pos = s.pos := rfl
@[simp] theorem raise_accum (c : Cause) (k p : Nat) (s : State) : (raise c k p s).accum = s.accum := rfl
@[simp] theorem raise_width (c : Cause) (k p : Nat) (s : State) : (raise c k p s).width = s.width := rfl
@[simp] theorem raise_maxCode (c : Cause) (k p : Nat) (s : State) : (raise c k p s).maxCode = s.maxCode := rfl
@[simp] theorem raise_prev (c : Cause) (k p : Nat) (s : State) : (raise c k p s).prev = s.prev := rfl
@[simp] theorem raise_dict (c : Cause) (k p : Nat) (s : State) : (raise c k p s).dict = s.dict := rfl
@[simp] theorem raise_out (c : Cause) (k p : Nat) (s : State) : (raise c k p s).out = s.out := rfl
@[simp] theorem raise_outCount (c : Cause) (k p : Nat) (s : State) : (raise c k p s).outCount = s.outCount := rfl
@[simp] theorem raise_phase (c : Cause) (k p : Nat) (s : State) : (raise c k p s).phase = .fault := rfl
@[simp] theorem raise_trunc (c : Cause) (k p : Nat) (s : State) : (raise c k p s).trunc = s.trunc := rfl
@[simp] theorem raise_fcause (c : Cause) (k p : Nat) (s : State) : (raise c k p s).fcause = c := rfl
@[simp] theorem raise_fcode (c : Cause) (k p : Nat) (s : State) : (raise c k p s).fcode = BitVec.ofNat 12 k := rfl
@[simp] theorem raise_fpos (c : Cause) (k p : Nat) (s : State) : (raise c k p s).fpos = p := rfl
@[simp] theorem raise_startReq (c : Cause) (k p : Nat) (s : State) : (raise c k p s).startReq = s.startReq := rfl

/-! ### START (R277) -/

@[simp] theorem start_input (s : State) : (start s).input = s.input := rfl
@[simp] theorem start_len (s : State) : (start s).len = s.len := rfl
@[simp] theorem start_pos (s : State) : (start s).pos = 0 := rfl
@[simp] theorem start_accum (s : State) : (start s).accum = ⟨0, 0, 0⟩ := rfl
@[simp] theorem start_width (s : State) : (start s).width = 9 := rfl
@[simp] theorem start_maxCode (s : State) : (start s).maxCode = 257 := rfl
@[simp] theorem start_prev (s : State) : (start s).prev = none := rfl
@[simp] theorem start_dict (s : State) : (start s).dict = literalEntries := rfl
@[simp] theorem start_out (s : State) : (start s).out = [] := rfl
@[simp] theorem start_outCount (s : State) : (start s).outCount = 0 := rfl
@[simp] theorem start_phase (s : State) : (start s).phase = .run := rfl
@[simp] theorem start_trunc (s : State) : (start s).trunc = false := rfl
@[simp] theorem start_fcause (s : State) : (start s).fcause = .noFault := rfl
@[simp] theorem start_fcode (s : State) : (start s).fcode = 0 := rfl
@[simp] theorem start_fpos (s : State) : (start s).fpos = 0 := rfl
@[simp] theorem start_startReq (s : State) : (start s).startReq = false := rfl

/-! ### The fields `Insert` leaves alone (R180) -/

@[simp] theorem insertEntry_input (e : ByteSeq) (s : State) : (insertEntry e s).input = s.input := by unfold insertEntry; split <;> rfl
@[simp] theorem insertEntry_len (e : ByteSeq) (s : State) : (insertEntry e s).len = s.len := by unfold insertEntry; split <;> rfl
@[simp] theorem insertEntry_pos (e : ByteSeq) (s : State) : (insertEntry e s).pos = s.pos := by unfold insertEntry; split <;> rfl
@[simp] theorem insertEntry_accum (e : ByteSeq) (s : State) : (insertEntry e s).accum = s.accum := by unfold insertEntry; split <;> rfl
@[simp] theorem insertEntry_prev (e : ByteSeq) (s : State) : (insertEntry e s).prev = s.prev := by unfold insertEntry; split <;> rfl
@[simp] theorem insertEntry_out (e : ByteSeq) (s : State) : (insertEntry e s).out = s.out := by unfold insertEntry; split <;> rfl
@[simp] theorem insertEntry_outCount (e : ByteSeq) (s : State) : (insertEntry e s).outCount = s.outCount := by unfold insertEntry; split <;> rfl
@[simp] theorem insertEntry_phase (e : ByteSeq) (s : State) : (insertEntry e s).phase = s.phase := by unfold insertEntry; split <;> rfl
@[simp] theorem insertEntry_trunc (e : ByteSeq) (s : State) : (insertEntry e s).trunc = s.trunc := by unfold insertEntry; split <;> rfl
@[simp] theorem insertEntry_fcause (e : ByteSeq) (s : State) : (insertEntry e s).fcause = s.fcause := by unfold insertEntry; split <;> rfl
@[simp] theorem insertEntry_fcode (e : ByteSeq) (s : State) : (insertEntry e s).fcode = s.fcode := by unfold insertEntry; split <;> rfl
@[simp] theorem insertEntry_fpos (e : ByteSeq) (s : State) : (insertEntry e s).fpos = s.fpos := by unfold insertEntry; split <;> rfl
@[simp] theorem insertEntry_startReq (e : ByteSeq) (s : State) : (insertEntry e s).startReq = s.startReq := by unfold insertEntry; split <;> rfl

/-! ### `Emit` (R201) -/

/-- R201: everything `Emit` does. -/
theorem emit_eq (bs : List Byte) (s : State) :
    emit bs s = { s with out := s.out ++ bs, outCount := s.outCount + bs.length } := by
  induction bs generalizing s with
  | nil => simp [emit]
  | cons b bs ih => simp [emit, ih, outPush]; omega

@[simp] theorem emit_input (bs : List Byte) (s : State) : (emit bs s).input = s.input := by rw [emit_eq]
@[simp] theorem emit_len (bs : List Byte) (s : State) : (emit bs s).len = s.len := by rw [emit_eq]
@[simp] theorem emit_pos (bs : List Byte) (s : State) : (emit bs s).pos = s.pos := by rw [emit_eq]
@[simp] theorem emit_accum (bs : List Byte) (s : State) : (emit bs s).accum = s.accum := by rw [emit_eq]
@[simp] theorem emit_width (bs : List Byte) (s : State) : (emit bs s).width = s.width := by rw [emit_eq]
@[simp] theorem emit_maxCode (bs : List Byte) (s : State) : (emit bs s).maxCode = s.maxCode := by rw [emit_eq]
@[simp] theorem emit_prev (bs : List Byte) (s : State) : (emit bs s).prev = s.prev := by rw [emit_eq]
@[simp] theorem emit_dict (bs : List Byte) (s : State) : (emit bs s).dict = s.dict := by rw [emit_eq]
@[simp] theorem emit_out (bs : List Byte) (s : State) : (emit bs s).out = s.out ++ bs := by rw [emit_eq]
@[simp] theorem emit_outCount (bs : List Byte) (s : State) : (emit bs s).outCount = s.outCount + bs.length := by rw [emit_eq]
@[simp] theorem emit_phase (bs : List Byte) (s : State) : (emit bs s).phase = s.phase := by rw [emit_eq]
@[simp] theorem emit_trunc (bs : List Byte) (s : State) : (emit bs s).trunc = s.trunc := by rw [emit_eq]
@[simp] theorem emit_fcause (bs : List Byte) (s : State) : (emit bs s).fcause = s.fcause := by rw [emit_eq]
@[simp] theorem emit_fcode (bs : List Byte) (s : State) : (emit bs s).fcode = s.fcode := by rw [emit_eq]
@[simp] theorem emit_fpos (bs : List Byte) (s : State) : (emit bs s).fpos = s.fpos := by rw [emit_eq]
@[simp] theorem emit_startReq (bs : List Byte) (s : State) : (emit bs s).startReq = s.startReq := by rw [emit_eq]

end Sys2Proof.Machine
end

