-- ==== Sys2Proof/Laws/Exec.lean ====
section
/-!
SUPPORT. What a code can do, said once: the meaning of a row is the effect of its class where the row applies, and `exec_cases` lists
every next state `exec` can answer.
-/

namespace Sys2Proof.Machine

/-- The effect of a class of codes on a state in which its row applies. -/
def classEffect (c : CodeClass) (code at_ : Nat) (s : State) : Result :=
  match c with
  | .clear => doClear s
  | .endOfInfo => doEnd s
  | .first => doFirst code at_ s
  | .badFirst => doBadFirst code at_ s
  | .lit => doPresent code at_ s
  | .ref => doPresent code at_ s
  | .defer => doDeferred s
  | .bad => doBad code at_ s

/-- R104: every row's meaning is the effect of its class, where the row applies. -/
theorem exec_eq (i : Instr) (s : State) : exec i s = inRow i s (classEffect i.cls i.code (codeStart i s) s) := by
  cases i <;> rfl

/-- A row that applies has its effect. -/
theorem exec_of_applies {i : Instr} {s : State} (hr : s.phase = .run) (ha : i.applies (decodeCtx s) = true) :
    exec i s = classEffect i.cls i.code (codeStart i s) s := by
  rw [exec_eq, inRow, if_pos ⟨hr, ha⟩]

/-- A next state comes from a run in progress and a row that applies. -/
theorem exec_next {i : Instr} {s t : State} (h : exec i s = .next t) :
    s.phase = .run ∧ i.applies (decodeCtx s) = true ∧
      classEffect i.cls i.code (codeStart i s) s = .next t := by
  rw [exec_eq, inRow] at h
  split at h
  · exact ⟨‹_ ∧ _›.1, ‹_ ∧ _›.2, h⟩
  · cases h

/-- Every next state a row can give. The lookup's guard (R175) is the case of cause `reserved`. -/
theorem exec_cases {i : Instr} {s t : State} (h : exec i s = .next t) :
    (i.cls = .clear ∧ t = resetDictionary s) ∨
    (i.cls = .endOfInfo ∧ t = stop false s) ∨
    (i.cls = .badFirst ∧ t = raise .afterReset i.code (codeStart i s) s) ∨
    (i.cls = .bad ∧ t = raise .outOfRange i.code (codeStart i s) s) ∨
    ((i.cls = .first ∨ i.cls = .lit ∨ i.cls = .ref) ∧ lookup s i.code = none ∧
      t = raise .reserved i.code (codeStart i s) s) ∨
    (i.cls = .first ∧ ∃ e, lookup s i.code = some e ∧ t = setPrev e (emit e.toList s)) ∨
    ((i.cls = .lit ∨ i.cls = .ref) ∧ ∃ p e, s.prev = some p ∧ lookup s i.code = some e ∧
      t = setPrev e (insertEntry (p.snoc e.first) (emit e.toList s))) ∨
    (i.cls = .defer ∧ ∃ p, s.prev = some p ∧
      t = setPrev (p.snoc p.first) (insertEntry (p.snoc p.first) (emit (p.snoc p.first).toList s))) := by
  obtain ⟨-, -, h⟩ := exec_next h
  have next_inj : ∀ {a b : State}, (Host.Outcome.next a : Result) = .next b → b = a := fun e => by cases e; rfl
  cases hc : i.cls <;> rw [hc] at h <;> simp only [classEffect] at h
  · exact .inl ⟨rfl, next_inj h⟩
  · exact .inr (.inl ⟨rfl, next_inj h⟩)
  · unfold doFirst at h
    cases hl : lookup s i.code with
    | none => rw [hl] at h; exact .inr (.inr (.inr (.inr (.inl ⟨.inl rfl, rfl, next_inj h⟩))))
    | some e => rw [hl] at h; exact .inr (.inr (.inr (.inr (.inr (.inl ⟨rfl, e, rfl, next_inj h⟩)))))
  · exact .inr (.inr (.inl ⟨rfl, next_inj h⟩))
  · unfold doPresent at h
    cases hp : s.prev with
    | none => rw [hp] at h; cases h
    | some p =>
      cases hl : lookup s i.code with
      | none => rw [hp, hl] at h; exact .inr (.inr (.inr (.inr (.inl ⟨.inr (.inl rfl), rfl, next_inj h⟩))))
      | some e =>
        rw [hp, hl] at h
        exact .inr (.inr (.inr (.inr (.inr (.inr (.inl ⟨.inl rfl, p, e, rfl, rfl, next_inj h⟩))))))
  · unfold doPresent at h
    cases hp : s.prev with
    | none => rw [hp] at h; cases h
    | some p =>
      cases hl : lookup s i.code with
      | none => rw [hp, hl] at h; exact .inr (.inr (.inr (.inr (.inl ⟨.inr (.inr rfl), rfl, next_inj h⟩))))
      | some e =>
        rw [hp, hl] at h
        exact .inr (.inr (.inr (.inr (.inr (.inr (.inl ⟨.inr rfl, p, e, rfl, rfl, next_inj h⟩))))))
  · unfold doDeferred at h
    cases hp : s.prev with
    | none => rw [hp] at h; cases h
    | some p => rw [hp] at h; exact .inr (.inr (.inr (.inr (.inr (.inr (.inr ⟨rfl, p, rfl, next_inj h⟩))))))
  · exact .inr (.inr (.inr (.inl ⟨rfl, next_inj h⟩)))

/-! ### Insertion (R180 to R182) -/

/-- R182: with a full table the insertion does nothing. -/
theorem insertEntry_full {s : State} (h : s.maxCode = 4095) (e : ByteSeq) : insertEntry e s = s := if_pos h

/-- R180: with room in the table the insertion writes the next free slot. -/
theorem insertEntry_room {s : State} (h : s.maxCode ≠ 4095) (e : ByteSeq) :
    insertEntry e s =
      { s with
        maxCode := s.maxCode + 1
        dict := s.dict.write (s.maxCode + 1) e
        width := grownWidth s.width (s.maxCode + 1) } := if_neg h

/-- R180: an insertion leaves every slot but the next free one alone. -/
theorem insertEntry_read_other (e : ByteSeq) (s : State) {a : Nat} (h : a ≠ s.maxCode + 1) :
    (insertEntry e s).dict.read a = s.dict.read a := by
  by_cases hf : s.maxCode = 4095
  · rw [insertEntry_full hf]
  · rw [insertEntry_room hf]; exact Dictionary.read_write_other _ _ h

/-- An insertion keeps the canonical form of the dictionary space. -/
theorem insertEntry_wf (e : ByteSeq) {s : State} (h : s.dict.wf) : (insertEntry e s).dict.wf := by
  by_cases hf : s.maxCode = 4095
  · rw [insertEntry_full hf]; exact h
  · rw [insertEntry_room hf]; exact Dictionary.wf_write h _ _

/-- R185: away from the reserved slots a lookup reads the dictionary. -/
theorem lookup_eq {s : State} {c : Nat} (h1 : c ≠ 256) (h2 : c ≠ 257) : lookup s c = s.dict.read c := by
  unfold lookup; rw [if_neg (by simp; omega)]

end Sys2Proof.Machine
end

