-- ==== Sys2Proof/Laws/Step.lean ====
section
/-!
SUPPORT. What reading a code and one step can do, said once.
-/

namespace Sys2Proof.Machine

/-- A stream bit is there when its byte is. -/
theorem streamBit_some {s : State} {i : Nat} {b : Byte} (h : memRead s (i / 8) = some b) :
    streamBit s i = some (byteBit b (i % 8)) := by
  unfold streamBit; rw [h]; rfl

/-- R16: a byte read lies below `LEN` and in the buffer. -/
theorem memRead_eq_some {s : State} {k : Nat} {b : Byte} :
    memRead s k = some b ↔ k < s.len ∧ s.input.read k = some b := by
  unfold memRead hasMore
  split <;> simp_all

/-- R120 to R122: a code is read from the bits at the cursor, and the cursor moves past it; the accumulator moves as R123 says. -/
theorem getCode_code {W v : Nat} {s t : State} (h : getCode W s = .code v t) :
    (9 ≤ W ∧ W ≤ 12) ∧ s.pos + W ≤ 8 * s.len ∧ assemble (streamBit s) s.pos W = some v ∧ v < 2 ^ W ∧
      t = { s with pos := s.pos + W, accum := (accumGetCode s W s.accum).2 } := by
  unfold getCode at h
  split_ifs at h with h1 h2
  cases ha : assemble (streamBit s) s.pos W with
  | none => simp [ha] at h
  | some u =>
    simp only [ha, Fetch.code.injEq] at h
    obtain ⟨rfl, rfl⟩ := h
    exact ⟨by simpa using h1, h2, rfl, assemble_lt ha, rfl⟩

/-- R122: `EOF` comes from too few bits, and leaves everything but the accumulator. -/
theorem getCode_eof {W : Nat} {s t : State} (h : getCode W s = .eof t) :
    (9 ≤ W ∧ W ≤ 12) ∧ 8 * s.len < s.pos + W ∧ t = { s with accum := (accumGetCode s W s.accum).2 } := by
  unfold getCode at h
  split_ifs at h with h1 h2
  · cases ha : assemble (streamBit s) s.pos W <;> simp [ha] at h
  · exact ⟨by simpa using h1, by omega, by cases h; rfl⟩

/-- R121: with enough bits, all in the buffer, a code is read. -/
theorem getCode_of_bits {W v : Nat} {s : State} (hW : 9 ≤ W ∧ W ≤ 12) (hl : s.pos + W ≤ 8 * s.len)
    (hv : assemble (streamBit s) s.pos W = some v) :
    getCode W s = .code v { s with pos := s.pos + W, accum := (accumGetCode s W s.accum).2 } := by
  unfold getCode; rw [if_pos (by simpa using hW), if_pos hl, hv]

/-- R122: with too few bits, `EOF`. -/
theorem getCode_of_short {W : Nat} {s : State} (hW : 9 ≤ W ∧ W ≤ 12) (hl : 8 * s.len < s.pos + W) :
    getCode W s = .eof { s with accum := (accumGetCode s W s.accum).2 } := by
  unfold getCode; rw [if_pos (by simpa using hW), if_neg (by omega)]

/-- R140: every next state of a code step: the end of the input, or a code carried out. -/
theorem codeStep_cases {s t : State} (h : codeStep s = .next t) :
    (∃ u, getCode s.width s = .eof u ∧ t = stop true u) ∨
    (∃ v u i, getCode s.width s = .code v u ∧ decode (decodeCtx s) v = .ok i ∧ exec i u = .next t) := by
  unfold codeStep at h
  cases hg : getCode s.width s with
  | widthOutOfRange => simp [hg] at h
  | absent => simp [hg] at h
  | eof u => simp only [hg, execEof] at h; exact .inl ⟨u, rfl, by cases h; rfl⟩
  | code v u =>
    simp only [hg] at h
    cases hd : decode (decodeCtx s) v with
    | reject e => simp [hd] at h
    | ok i => simp only [hd] at h; exact .inr ⟨v, u, i, rfl, hd, h⟩

/-- R140, R217 to R219: every next state of a step: START taken, nothing to do, or a code step. -/
theorem step_cases {s t : State} (h : step s = .next t) :
    (s.phase ≠ .run ∧ s.startReq = true ∧ t = start s) ∨
    (s.phase ≠ .run ∧ s.startReq = false ∧ t = s) ∨
    (s.phase = .run ∧ s.startReq = false ∧ codeStep s = .next t) := by
  unfold step at h
  cases hp : s.phase <;> cases hr : s.startReq <;> simp only [hp, hr] at h
  all_goals first
    | (cases h; done)
    | (cases h; simp)
    | (simp [h])

/-- A step of a run in progress is a code step. -/
theorem step_run {s : State} (hp : s.phase = .run) (hr : s.startReq = false) : step s = codeStep s := by
  unfold step; rw [hp, hr]

/-- R140: a step carries out the code it reads. -/
theorem step_run_cases {s t : State} (hp : s.phase = .run) (h : step s = .next t) :
    s.startReq = false ∧
    ((∃ u, getCode s.width s = .eof u ∧ t = stop true u) ∨
     (∃ v u i, getCode s.width s = .code v u ∧ decode (decodeCtx s) v = .ok i ∧ exec i u = .next t)) := by
  rcases step_cases h with ⟨h1, -⟩ | ⟨h1, -⟩ | ⟨-, h2, h3⟩
  · exact absurd hp h1
  · exact absurd hp h1
  · exact ⟨h2, codeStep_cases h3⟩

/-- R123: the top-up loop only ever adds whole bytes: the cursor it stands for does not move. -/
theorem topUp_tied (s : State) (W n : Nat) (a : Accum) :
    8 * (topUp s W n a).bytePos + a.accCnt = 8 * a.bytePos + (topUp s W n a).accCnt := by
  induction n generalizing a with
  | zero => rfl
  | succ n ih =>
    unfold topUp
    split_ifs
    · cases memRead s a.bytePos with
      | none => rfl
      | some b => have := ih ⟨a.bytePos + 1, a.accCnt + 8, a.acc * 256 + b.toNat⟩; simp at this ⊢; omega
    · omega

/-- Placing a code keeps the canonical form of the input space. -/
theorem storeCode_wf (W w : Nat) {s : State} (h : s.input.wf) : (storeCode W w s).input.wf :=
  Memory.wf_setBits _ _ _ h

/-- `withFetchWord` keeps the canonical form of the input space. -/
theorem withFetchWord_wf {s : State} (h : s.input.wf) (nbits w : Nat) : (s.withFetchWord nbits w).input.wf := by
  unfold State.withFetchWord placeTableWord
  cases tableFormat nbits w with
  | none => exact h
  | some f =>
    cases hp : s.phase <;> simp only
    case run => exact storeCode_wf _ _ h
    all_goals exact storeCode_wf _ _ (by cases f <;> exact List.Pairwise.nil)

end Sys2Proof.Machine
end

