-- ==== Sys2Proof/Laws/Extractor.lean ====
section
/-!
SUPPORT. The accumulator of the Bit Extractor holds stream bits (R22, R123), and each top-up keeps that true.
-/

namespace Sys2Proof.Machine

/-- The last bits of a byte, read as a number. -/
theorem byte_tail_bits (b : Byte) (n : Nat) (h : n ≤ 8) :
    assemble (fun j => some (byteBit b j)) (8 - n) n = some (b.toNat % 2 ^ n) := by
  revert b
  interval_cases n <;> decide +kernel

/-- The last stream bits of an input byte are the last bits of that byte. -/
theorem assemble_byte_tail {s : State} {k n : Nat} {b : Byte} (hn : n ≤ 8) (h : memRead s k = some b) :
    assemble (streamBit s) (8 * k + (8 - n)) n = some (b.toNat % 2 ^ n) := by
  rw [← byte_tail_bits b n hn]
  refine assemble_congr fun j hj => ?_
  have h1 : (8 * k + (8 - n) + j) / 8 = k := by omega
  have h2 : (8 * k + (8 - n) + j) % 8 = 8 - n + j := by omega
  rw [streamBit_some (b := b) (by rw [h1]; exact h), h2]

/-- R22: the accumulator `a` holds the stream bits from `p` up to the end of the last byte it has consumed. -/
structure Accum.Holds (s : State) (p : Nat) (a : Accum) : Prop where
  tied : 8 * a.bytePos = p + a.accCnt
  inInput : a.bytePos ≤ s.len
  bits : assemble (streamBit s) p a.accCnt = some a.acc

/-- R123: a top-up appends the bits of the next byte below the pending ones. -/
theorem topUp_holds {s : State} {p : Nat} {W n : Nat} {a : Accum} (h : Accum.Holds s p a) : Accum.Holds s p (topUp s W n a) := by
  induction n generalizing a with
  | zero => exact h
  | succ n ih =>
    unfold topUp
    split_ifs
    · cases hm : memRead s a.bytePos with
      | none => exact h
      | some b =>
        obtain ⟨h1, h2, h3⟩ := h
        refine ih ⟨by simp; omega, (memRead_eq_some.1 hm).1, ?_⟩
        have := assemble_byte_tail (n := 8) le_rfl hm
        rw [show 8 * a.bytePos + (8 - 8) = p + a.accCnt by omega] at this
        have := assemble_append h3 this
        simpa [Nat.mod_eq_of_lt b.isLt] using this
    · exact h

end Sys2Proof.Machine
end

