-- ==== Sys2Proof/Laws/HostPort.lean ====
section
/-!
SUPPORT. What the host sees, and what its two actions can do, said once.
-/

namespace Sys2Proof.Machine

/-- R223: START has been issued when the run is in progress or the line is up. -/
@[simp] theorem startIssued_iff {s : State} : startIssued s = true ↔ s.phase = .run ∨ s.startReq = true := by
  simp [startIssued, or_comm]

/-- With no START waiting the host sees the state. -/
@[simp] theorem hostView_idle {s : State} (h : s.startReq = false) : hostView s = s := if_neg (by simp [h])

/-- During a run the host sees the state. -/
@[simp] theorem hostView_run {s : State} (h : s.phase = .run) : hostView s = s := if_neg (by simp [h])

/-- R226: with a START waiting the host sees the decode-start state. -/
theorem hostView_started {s : State} (hp : s.phase ≠ .run) (hr : s.startReq = true) : hostView s = start s := if_pos ⟨hr, hp⟩

/-- R217: what the host sees of `LEN` is `LEN` itself, since START keeps it. -/
@[simp] theorem hostView_len (s : State) : (hostView s).len = s.len := by
  unfold hostView; split <;> rfl

/-- R37: the status word as a number. -/
theorem statusWord_toNat (s : State) :
    (statusWord s).toNat = s.phase.num.toNat + 4 * s.trunc.toNat + 8 * s.fcause.num.toNat := by
  unfold statusWord
  cases s.phase <;> cases s.trunc <;> cases s.fcause <;> rfl

/-- The host's registers depend on what it sees alone. -/
theorem hostRead_congr {s t : State} (h : hostView s = hostView t) (n : Nat) : hostRead n s = hostRead n t := by
  unfold hostRead; rw [h]

/-- R226: the step that takes START changes nothing the host sees. -/
theorem hostView_step_start {s t : State} (hp : s.phase ≠ .run) (hr : s.startReq = true) (h : step s = .next t) :
    hostView t = hostView s := by
  rcases step_cases h with ⟨-, -, rfl⟩ | ⟨-, h2, -⟩ | ⟨h1, -⟩
  · rw [hostView_started hp hr]; exact hostView_idle rfl
  · simp [hr] at h2
  · exact absurd h1 hp

/-- R226: every next state of preparing: START not issued, and the input and `LEN` replaced. -/
theorem hostPrepare_next {bytes : List Byte} {s t : State} (h : hostPrepare bytes s = .next t) :
    s.phase ≠ .run ∧ s.startReq = false ∧ t = { s with input := Memory.ofBytesFrom 0 bytes, len := bytes.length } := by
  unfold hostPrepare at h
  split at h
  · cases h
  · rename_i hs
    cases h
    simpa using hs

/-- R217: every next state of START: not issued before, and the line raised. -/
theorem hostStart_next {s t : State} (h : hostStart s = .next t) :
    s.phase ≠ .run ∧ s.startReq = false ∧ t = { s with startReq := true } := by
  unfold hostStart at h
  split at h
  · cases h
  · rename_i hs
    cases h
    simpa using hs

/-- R223 (a), (d): from START until the run ends both actions are refused. -/
theorem host_refused {s : State} (h : s.phase = .run ∨ s.startReq = true) (bytes : List Byte) :
    hostPrepare bytes s = .refused .inputChangeDuringRun ∧ hostStart s = .refused .startDuringRun := by
  have := startIssued_iff.2 h
  exact ⟨if_pos this, if_pos this⟩

end Sys2Proof.Machine
end

