-- ==== Sys2Proof/Laws/PerInstr.lean ====
section
/-!
SUPPORT. The per-instruction family `CodeInField`: an instruction's code fits the field of its format (R91), one lemma per constructor.
-/

namespace Sys2Proof.Laws.CodeInField

/-- R91: the code of a well-formed instruction is a value of its format's field. -/
def Statement (i : Instr) : Prop := i.wf = true → i.code < 2 ^ i.width

theorem clearC9 : Statement .clearC9 := by intro _; decide

theorem endC9 : Statement .endC9 := by intro _; decide

theorem firstC9 (b : Byte) : Statement (.firstC9 b) := fun _ => b.isLt.trans (show 2 ^ 8 < 2 ^ 9 by decide)

theorem badFirstC9 (code : BitVec 9) : Statement (.badFirstC9 code) := fun _ => code.isLt

theorem litC9 (b : Byte) : Statement (.litC9 b) := fun _ => b.isLt.trans (show 2 ^ 8 < 2 ^ 9 by decide)

theorem refC9 (code : BitVec 9) : Statement (.refC9 code) := fun _ => code.isLt

theorem deferC9 (code : BitVec 9) : Statement (.deferC9 code) := fun _ => code.isLt

theorem badC9 (code : BitVec 9) : Statement (.badC9 code) := fun _ => code.isLt

theorem clearC10 : Statement .clearC10 := by intro _; decide

theorem endC10 : Statement .endC10 := by intro _; decide

theorem litC10 (b : Byte) : Statement (.litC10 b) := fun _ => b.isLt.trans (show 2 ^ 8 < 2 ^ 10 by decide)

theorem refC10 (code : BitVec 10) : Statement (.refC10 code) := fun _ => code.isLt

theorem deferC10 (code : BitVec 10) : Statement (.deferC10 code) := fun _ => code.isLt

theorem badC10 (code : BitVec 10) : Statement (.badC10 code) := fun _ => code.isLt

theorem clearC11 : Statement .clearC11 := by intro _; decide

theorem endC11 : Statement .endC11 := by intro _; decide

theorem litC11 (b : Byte) : Statement (.litC11 b) := fun _ => b.isLt.trans (show 2 ^ 8 < 2 ^ 11 by decide)

theorem refC11 (code : BitVec 11) : Statement (.refC11 code) := fun _ => code.isLt

theorem deferC11 (code : BitVec 11) : Statement (.deferC11 code) := fun _ => code.isLt

theorem badC11 (code : BitVec 11) : Statement (.badC11 code) := fun _ => code.isLt

theorem clearC12 : Statement .clearC12 := by intro _; decide

theorem endC12 : Statement .endC12 := by intro _; decide

theorem litC12 (b : Byte) : Statement (.litC12 b) := fun _ => b.isLt.trans (show 2 ^ 8 < 2 ^ 12 by decide)

theorem refC12 (code : BitVec 12) : Statement (.refC12 code) := fun _ => code.isLt

theorem deferC12 (code : BitVec 12) : Statement (.deferC12 code) := fun _ => code.isLt

theorem badC12 (code : BitVec 12) : Statement (.badC12 code) := fun _ => code.isLt

end Sys2Proof.Laws.CodeInField
end

