-- ==== Sys2Proof/Laws/Placement.lean ====
section
/-!
SUPPORT. A code placed by `storeCode` is the one read back at the cursor, from any state; so `withFetchWord` runs the word it places.
-/

namespace Sys2Proof.Machine

/-- R13: stream bit `i` of an input space, whatever its length. -/
def Memory.bit (m : Memory) (i : Nat) : Option Bool := (m.read (i / 8)).map (byteBit · (i % 8))

/-- R13: setting one bit of a byte changes that bit alone. -/
theorem byteBit_setByteBit (b : Byte) (v : Bool) {j k : Nat} (hj : j < 8) (hk : k < 8) :
    byteBit (setByteBit b j v) k = if k = j then v else byteBit b k := by
  revert b v
  interval_cases j <;> interval_cases k <;> decide +kernel

/-- The bit just set is there. -/
theorem Memory.bit_setBit_same (m : Memory) (i : Nat) (v : Bool) : (m.setBit i v).bit i = some v := by
  have h : i % 8 < 8 := Nat.mod_lt _ (by decide)
  unfold Memory.bit Memory.setBit
  rw [Memory.read_write_same, Option.map_some, byteBit_setByteBit _ _ h h, if_pos rfl]

/-- Setting a bit leaves every bit that was there alone. -/
theorem Memory.bit_setBit_other {m : Memory} {i j : Nat} {b : Bool} (v : Bool) (h : j ≠ i) (hb : m.bit j = some b) :
    (m.setBit i v).bit j = some b := by
  unfold Memory.bit at hb ⊢
  unfold Memory.setBit
  by_cases hd : j / 8 = i / 8
  · rw [hd] at hb ⊢
    rw [Memory.read_write_same]
    obtain ⟨x, hx, hxb⟩ := Option.map_eq_some_iff.1 hb
    rw [hx, Option.map_some, Option.getD_some,
      byteBit_setByteBit _ _ (Nat.mod_lt _ (by decide)) (Nat.mod_lt _ (by decide)), if_neg (by omega), hxb]
  · rw [Memory.read_write_other _ _ hd, hb]

/-- Placing a code leaves every bit outside it that was there alone. -/
theorem Memory.bit_setBits_other {m : Memory} {p n w j : Nat} {b : Bool} (h : p + n ≤ j) (hb : m.bit j = some b) :
    (Memory.setBits p n w m).bit j = some b := by
  induction n generalizing w m with
  | zero => exact hb
  | succ n ih => exact ih (by omega) (Memory.bit_setBit_other _ (by omega) hb)

/-- R92: a placed code is read back, first bit most significant. -/
theorem Memory.assemble_setBits (m : Memory) (p n w : Nat) :
    assemble (Memory.setBits p n w m).bit p n = some (w % 2 ^ n) := by
  induction n generalizing w m with
  | zero => simp [assemble, Nat.mod_one]
  | succ n ih =>
    have h1 : (Memory.setBits p (n + 1) w m).bit (p + n) = some (w.testBit 0) :=
      Memory.bit_setBits_other (w := w / 2) le_rfl (Memory.bit_setBit_same m _ _)
    rw [assemble_succ, h1, Memory.setBits, ih]
    simp only [Option.some.injEq]
    rw [Nat.testBit_zero, Nat.pow_succ, Nat.mul_comm _ 2, Nat.mod_mul]
    rcases Nat.mod_two_eq_zero_or_one w with h | h <;> (simp [h]; try omega)

/-- R92: the code placed at the cursor is the code the stream holds there. -/
theorem storeCode_read {s : State} {W w : Nat} (h : w < 2 ^ W) :
    assemble (streamBit (storeCode W w s)) (storeCode W w s).pos W = some w := by
  have := Memory.assemble_setBits s.input s.pos W w
  rw [Nat.mod_eq_of_lt h] at this
  rw [← this]
  refine assemble_congr fun j hj => ?_
  have hl : (s.pos + j) / 8 < max s.len ((s.pos + W + 7) / 8) := by omega
  unfold streamBit memRead hasMore Memory.bit
  simp [storeCode, hl]

/-- R121: `GETCODE` reads the placed code. -/
theorem storeCode_getCode {s : State} {W w : Nat} (hW : 9 ≤ W ∧ W ≤ 12) (h : w < 2 ^ W) :
    ∃ a, getCode W (storeCode W w s) =
      .code w { storeCode W w s with pos := s.pos + W, accum := a } :=
  ⟨_, getCode_of_bits hW (by show s.pos + W ≤ 8 * max s.len ((s.pos + W + 7) / 8); omega) (storeCode_read h)⟩

end Sys2Proof.Machine
end

