-- ==== Sys2Proof/Tests/Slice0.lean ====
section
/-!
SUPPORT. Tests of the model. Expected results come from the spec's own encodings, worked examples and vectors (95_test_vectors.md), cited
at each test; and for every obligation that has hypotheses there is a concrete state that meets them all together.
-/

namespace Sys2Proof.Tests

open Sys2Proof.Machine

/-! ### WellFormed: a dynamic row whose code lies below 258 is refused, in every row that has the check -/

theorem test_wf_badFirstC9_257_refused : (Instr.badFirstC9 257).wf = false := by decide

theorem test_wf_refC9_257_refused : (Instr.refC9 257).wf = false := by decide

theorem test_wf_deferC9_257_refused : (Instr.deferC9 257).wf = false := by decide

theorem test_wf_badC9_256_refused : (Instr.badC9 256).wf = false := by decide

theorem test_wf_refC10_257_refused : (Instr.refC10 257).wf = false := by decide

theorem test_wf_deferC10_0_refused : (Instr.deferC10 0).wf = false := by decide

theorem test_wf_badC10_257_refused : (Instr.badC10 257).wf = false := by decide

theorem test_wf_refC11_255_refused : (Instr.refC11 255).wf = false := by decide

theorem test_wf_deferC11_257_refused : (Instr.deferC11 257).wf = false := by decide

theorem test_wf_badC11_256_refused : (Instr.badC11 256).wf = false := by decide

theorem test_wf_refC12_257_refused : (Instr.refC12 257).wf = false := by decide

theorem test_wf_deferC12_257_refused : (Instr.deferC12 257).wf = false := by decide

theorem test_wf_badC12_257_refused : (Instr.badC12 257).wf = false := by decide

theorem test_wf_smallest_dynamic_accepted :
    (Instr.refC9 258).wf = true ∧ (Instr.badFirstC9 258).wf = true ∧ (Instr.deferC12 258).wf = true := by decide

/-! ### Decode: every row's word, written out from the `encoding` column of R104, the bits after it 1 to show they are not read -/

theorem test_decode_clearC9 :
    decodeBytes ⟨9, 257, true⟩ [0b10000000, 0b01111111] = .ok .clearC9 := by decide

theorem test_decode_endC9 :
    decodeBytes ⟨9, 257, true⟩ [0b10000000, 0b11111111] = .ok .endC9 := by decide

theorem test_decode_firstC9 :
    decodeBytes ⟨9, 257, false⟩ [0b01111000, 0b01111111] = .ok (.firstC9 0xF0) := by decide

theorem test_decode_badFirstC9 :
    decodeBytes ⟨9, 257, false⟩ [0b10000001, 0b01111111] = .ok (.badFirstC9 258) := by decide

theorem test_decode_litC9 :
    decodeBytes ⟨9, 257, true⟩ [0b00100001, 0b01111111] = .ok (.litC9 0x42) := by decide

theorem test_decode_refC9 :
    decodeBytes ⟨9, 300, true⟩ [0b10010110, 0b01111111] = .ok (.refC9 300) := by decide

theorem test_decode_deferC9 :
    decodeBytes ⟨9, 300, true⟩ [0b10010110, 0b11111111] = .ok (.deferC9 301) := by decide

theorem test_decode_badC9 :
    decodeBytes ⟨9, 300, true⟩ [0b10010111, 0b01111111] = .ok (.badC9 302) := by decide

theorem test_decode_clearC10 :
    decodeBytes ⟨10, 510, true⟩ [0b01000000, 0b00111111] = .ok .clearC10 := by decide

theorem test_decode_endC10 :
    decodeBytes ⟨10, 510, true⟩ [0b01000000, 0b01111111] = .ok .endC10 := by decide

theorem test_decode_litC10 :
    decodeBytes ⟨10, 510, true⟩ [0b00111111, 0b10111111] = .ok (.litC10 0xFE) := by decide

theorem test_decode_refC10 :
    decodeBytes ⟨10, 510, true⟩ [0b01111111, 0b10111111] = .ok (.refC10 510) := by decide

theorem test_decode_deferC10 :
    decodeBytes ⟨10, 510, true⟩ [0b01111111, 0b11111111] = .ok (.deferC10 511) := by decide

theorem test_decode_badC10 :
    decodeBytes ⟨10, 510, true⟩ [0b10000000, 0b00111111] = .ok (.badC10 512) := by decide

theorem test_decode_clearC11 :
    decodeBytes ⟨11, 1022, true⟩ [0b00100000, 0b00011111] = .ok .clearC11 := by decide

theorem test_decode_endC11 :
    decodeBytes ⟨11, 1022, true⟩ [0b00100000, 0b00111111] = .ok .endC11 := by decide

theorem test_decode_litC11 :
    decodeBytes ⟨11, 1022, true⟩ [0b00010000, 0b00111111] = .ok (.litC11 0x81) := by decide

theorem test_decode_refC11 :
    decodeBytes ⟨11, 1022, true⟩ [0b01111111, 0b11011111] = .ok (.refC11 1022) := by decide

theorem test_decode_deferC11 :
    decodeBytes ⟨11, 1022, true⟩ [0b01111111, 0b11111111] = .ok (.deferC11 1023) := by decide

theorem test_decode_badC11 :
    decodeBytes ⟨11, 1022, true⟩ [0b10000000, 0b00011111] = .ok (.badC11 1024) := by decide

theorem test_decode_clearC12 :
    decodeBytes ⟨12, 2046, true⟩ [0b00010000, 0b00001111] = .ok .clearC12 := by decide

theorem test_decode_endC12 :
    decodeBytes ⟨12, 2046, true⟩ [0b00010000, 0b00011111] = .ok .endC12 := by decide

theorem test_decode_litC12 :
    decodeBytes ⟨12, 2046, true⟩ [0b00000000, 0b01111111] = .ok (.litC12 0x07) := by decide

theorem test_decode_refC12 :
    decodeBytes ⟨12, 4095, true⟩ [0b11111111, 0b11111111] = .ok (.refC12 4095) := by decide

theorem test_decode_deferC12 :
    decodeBytes ⟨12, 4094, true⟩ [0b11111111, 0b11111111] = .ok (.deferC12 4095) := by decide

theorem test_decode_badC12 :
    decodeBytes ⟨12, 2046, true⟩ [0b10000000, 0b00001111] = .ok (.badC12 2048) := by decide

/-- R122, R127, R103: what the decoder refuses, by name. -/
theorem test_decode_refusals :
    decodeBytes ⟨9, 257, false⟩ [0x80] = .reject .tooShort ∧
    decodeBytes ⟨13, 257, false⟩ [0x80, 0x00] = .reject .widthOutOfRange ∧
    decodeBytes ⟨10, 257, false⟩ [0x10, 0x00] = .reject .noRow := by decide

/-- R92: the codes of vectors T12 (`80 80`), T13 (`81 00`) and the first byte pairs of the words above. -/
theorem test_encode :
    encode .endC9 = [0x80, 0x80] ∧ encode (.badFirstC9 258) = [0x81, 0x00] ∧
    encode (.litC10 0xFE) = [0x3F, 0x80] ∧ encode (.refC12 4095) = [0xFF, 0xF0] := by decide

/-- 95_test_vectors.md section 3.9: the class of one code read. -/
theorem test_classes_fresh :
    [0, 255, 256, 257, 258, 511].map (classOf ⟨9, 257, false⟩) =
      [.first, .first, .clear, .endOfInfo, .badFirst, .badFirst] := by decide

theorem test_classes_held_9 :
    [255, 258, 259].map (classOf ⟨9, 257, true⟩) = [.lit, .defer, .bad] ∧
    [258, 300, 301, 302].map (classOf ⟨9, 300, true⟩) = [.ref, .ref, .defer, .bad] ∧
    [510, 511].map (classOf ⟨9, 509, true⟩) = [.defer, .bad] := by decide

theorem test_classes_held_10_11 :
    [256, 257, 510, 511, 512].map (classOf ⟨10, 510, true⟩) = [.clear, .endOfInfo, .ref, .defer, .bad] ∧
    [1022, 1023].map (classOf ⟨10, 1021, true⟩) = [.defer, .bad] ∧
    [1023, 1024].map (classOf ⟨11, 1022, true⟩) = [.defer, .bad] ∧
    [2046, 2047].map (classOf ⟨11, 2045, true⟩) = [.defer, .bad] := by decide

theorem test_classes_held_12 :
    [2047, 2048].map (classOf ⟨12, 2046, true⟩) = [.defer, .bad] ∧
    [4095].map (classOf ⟨12, 4094, true⟩) = [.defer] ∧
    [4095, 0, 256].map (classOf ⟨12, 4095, true⟩) = [.ref, .lit, .clear] := by decide

/-! ### Small states -/

/-- A run in progress over these bytes: the cursor, the width, `maxCode`, the previous sequence, and entries beyond the literals. -/
def st (bytes : List Byte) (pos width maxCode : Nat) (prev : Option ByteSeq) (entries : Dictionary) : State :=
  { start State.reset with
    input := Memory.ofBytesFrom 0 bytes
    len := bytes.length
    pos := pos
    accum := Accum.ofCursor (Memory.ofBytesFrom 0 bytes) pos
    width := width
    maxCode := maxCode
    prev := prev
    dict := literalEntries ++ entries }

/-- The next state, when there is one. -/
def nextOf (r : Result) : Option State :=
  match r with
  | .next t => some t
  | _ => none

/-- The decoder's working state. -/
structure Work where
  pos : Nat
  width : Nat
  maxCode : Nat
  prev : Option ByteSeq
deriving DecidableEq

/-- The status record, with the output. -/
structure Seen where
  phase : Phase
  trunc : Bool
  fcause : Cause
  fcode : BitVec 12
  fpos : Nat
  out : List Byte
  outCount : Nat
deriving DecidableEq

/-- What the decoder's working state is after a step. -/
def work (r : Result) : Option Work := (nextOf r).map fun t => ⟨t.pos, t.width, t.maxCode, t.prev⟩

/-- What a slot holds after a step. -/
def slot (r : Result) (c : Nat) : Option ByteSeq := (nextOf r).bind (·.dict.read c)

/-- What the host sees of the status record after a step, with the output. -/
def seen (r : Result) : Option Seen :=
  (nextOf r).map fun t => ⟨t.phase, t.trunc, t.fcause, t.fcode, t.fpos, t.out, t.outCount⟩

/-- The result of `GETCODE`, with the cursor and the accumulator after it. -/
def got (W : Nat) (s : State) : Option (Option Nat × Nat × Accum) :=
  match getCode W s with
  | .code v t => some (some v, t.pos, t.accum)
  | .eof t => some (none, t.pos, t.accum)
  | _ => none

/-- A state that only `GETCODE` looks at. -/
def buf (bytes : List Byte) (pos : Nat) : State := st bytes pos 9 257 none []

/-! ### The Bit Extractor: the table of R132 and section 3.1 -/

theorem test_getcode_T1 :
    got 9 (buf [0x80, 0x40, 0x40] 0) = some (some 256, 9, ⟨2, 7, 0x40⟩) ∧
    got 9 (buf [0x80, 0x40, 0x40] 9) = some (some 257, 18, ⟨3, 6, 0⟩) ∧
    got 9 (buf [0x80, 0x40, 0x40] 18) = some (none, 18, ⟨3, 6, 0⟩) := by decide +kernel

theorem test_getcode_T3 :
    got 9 (buf [0x80, 0x10, 0x48, 0x50, 0x28, 0x24, 0x04] 9) = some (some 65, 18, ⟨3, 6, 0x08⟩) ∧
    got 9 (buf [0x80, 0x10, 0x48, 0x50, 0x28, 0x24, 0x04] 36) = some (some 260, 45, ⟨6, 3, 0x04⟩) := by decide +kernel

theorem test_getcode_ones :
    got 12 (buf [0xFF, 0xFF, 0xFF] 0) = some (some 4095, 12, ⟨2, 4, 0x0F⟩) ∧
    got 12 (buf [0xFF, 0xFF, 0xFF] 12) = some (some 4095, 24, ⟨3, 0, 0⟩) ∧
    got 12 (buf [0xFF, 0xFF, 0xFF] 24) = some (none, 24, ⟨3, 0, 0⟩) := by decide +kernel

theorem test_getcode_straddling :
    got 10 (buf [0x12, 0x34, 0x56] 7) = some (some 104, 17, ⟨3, 7, 0x56⟩) ∧
    got 12 (buf [0x12, 0x34, 0x56] 7) = some (some 418, 19, ⟨3, 5, 0x16⟩) ∧
    (got 11 (buf [0xFF, 0x00, 0xFF] 5)).map (·.1) = some (some 1792) ∧
    (got 12 (buf [0x12, 0x34, 0x56] 13)).map (·.1) = some none := by decide +kernel

theorem test_getcode_short :
    got 9 (buf [0x80] 0) = some (none, 0, ⟨1, 8, 0x80⟩) ∧ got 9 (buf [] 0) = some (none, 0, ⟨0, 0, 0⟩) := by decide +kernel

/-! ### One code step each -/

/-- R143's worked example: CLEAR read at 10 bits. -/
theorem test_clear_at_10_bits :
    let r := step (st [0b01000000, 0] 0 10 511 (some ⟨0xFE, []⟩) [(258, ⟨0, [1]⟩), (511, ⟨0xFD, [0xFE]⟩)])
    work r = some ⟨10, 9, 257, none⟩ ∧ slot r 258 = none ∧ slot r 511 = none ∧ slot r 65 = some ⟨65, []⟩ := by decide +kernel

/-- R143: CLEAR at the other widths. -/
theorem test_clear_at_other_widths :
    work (step (st [0x80, 0x00] 0 9 257 none [])) = some ⟨9, 9, 257, none⟩ ∧
    work (step (st [0x20, 0x00] 0 11 1500 (some ⟨1, []⟩) [])) = some ⟨11, 9, 257, none⟩ ∧
    work (step (st [0x10, 0x00] 0 12 4095 (some ⟨1, []⟩) [])) = some ⟨12, 9, 257, none⟩ := by decide +kernel

/-- R148: END at each width, in either state. -/
theorem test_end :
    seen (step (st [0x80, 0x40, 0x40] 9 9 257 none [])) = some ⟨.done, false, .noFault, 0, 0, [], 0⟩ ∧
    seen (step (st [0x40, 0x40] 0 10 511 (some ⟨1, []⟩) [])) = some ⟨.done, false, .noFault, 0, 0, [], 0⟩ ∧
    seen (step (st [0x20, 0x20] 0 11 1500 (some ⟨1, []⟩) [])) = some ⟨.done, false, .noFault, 0, 0, [], 0⟩ ∧
    seen (step (st [0x10, 0x10] 0 12 4095 (some ⟨1, []⟩) [])) = some ⟨.done, false, .noFault, 0, 0, [], 0⟩ := by decide +kernel

/-- R146's worked example, read in vector T7. -/
theorem test_first :
    let r := step (st [0x80, 0x10, 0x40] 9 9 257 none [])
    work r = some ⟨18, 9, 257, some ⟨0x41, []⟩⟩ ∧ seen r = some ⟨.run, false, .noFault, 0, 0, [0x41], 1⟩ ∧
      slot r 258 = none := by decide +kernel

/-- R147's worked example, vector T5, and the largest value, vector T5b. -/
theorem test_badFirst :
    seen (step (st [0x80, 0x40, 0x80] 9 9 257 none [])) = some ⟨.fault, false, .afterReset, 258, 9, [], 0⟩ ∧
    seen (step (st [0x80, 0x7F, 0xC0] 9 9 257 none [])) = some ⟨.fault, false, .afterReset, 511, 9, [], 0⟩ := by decide +kernel

/-- R171's worked example: vector T3, third code. -/
theorem test_lit :
    let r := step (st [0x80, 0x10, 0x48, 0x50, 0x28, 0x24, 0x04] 18 9 257 (some ⟨0x41, []⟩) [])
    work r = some ⟨27, 9, 258, some ⟨0x42, []⟩⟩ ∧ slot r 258 = some ⟨0x41, [0x42]⟩ ∧
      seen r = some ⟨.run, false, .noFault, 0, 0, [0x42], 1⟩ := by decide +kernel

/-- R182: at a full table LIT and REF emit and record, and insert nothing. -/
theorem test_full_table :
    let l := exec (.litC12 7) (st [] 12 12 4095 (some ⟨1, []⟩) [])
    let r := exec (.refC12 4095) (st [] 12 12 4095 (some ⟨1, []⟩) [(4095, ⟨8, [9]⟩)])
    work l = some ⟨12, 12, 4095, some ⟨7, []⟩⟩ ∧ slot l 4096 = none ∧
      work r = some ⟨12, 12, 4095, some ⟨8, [9]⟩⟩ ∧ slot r 4095 = some ⟨8, [9]⟩ ∧
      seen r = some ⟨.run, false, .noFault, 0, 0, [8, 9], 2⟩ := by decide +kernel

/-- R172's worked example: vector T3, fourth code. The new entry ends in the first byte of the entry looked up. -/
theorem test_ref :
    let r := step (st [0x80, 0x10, 0x48, 0x50, 0x28, 0x24, 0x04] 27 9 258 (some ⟨0x42, []⟩) [(258, ⟨0x41, [0x42]⟩)])
    work r = some ⟨36, 9, 259, some ⟨0x41, [0x42]⟩⟩ ∧ slot r 259 = some ⟨0x42, [0x41]⟩ ∧
      seen r = some ⟨.run, false, .noFault, 0, 0, [0x41, 0x42], 2⟩ := by decide +kernel

/-- R173's worked example: vector T3, fifth code. -/
theorem test_defer :
    let r := step (st [0x80, 0x10, 0x48, 0x50, 0x28, 0x24, 0x04] 36 9 259 (some ⟨0x41, [0x42]⟩)
      [(258, ⟨0x41, [0x42]⟩), (259, ⟨0x42, [0x41]⟩)])
    work r = some ⟨45, 9, 260, some ⟨0x41, [0x42, 0x41]⟩⟩ ∧ slot r 260 = some ⟨0x41, [0x42, 0x41]⟩ ∧
      seen r = some ⟨.run, false, .noFault, 0, 0, [0x41, 0x42, 0x41], 3⟩ := by decide +kernel

/-- R181: the step that writes slot 510, 1022 or 2046 raises the width; one earlier does not; at 12 bits none does (C7). -/
theorem test_growth :
    work (exec (.deferC9 509) (st [] 9 9 508 (some ⟨0, []⟩) [])) = some ⟨9, 9, 509, some ⟨0, [0]⟩⟩ ∧
    work (exec (.deferC9 510) (st [] 9 9 509 (some ⟨0, []⟩) [])) = some ⟨9, 10, 510, some ⟨0, [0]⟩⟩ ∧
    work (exec (.deferC10 1022) (st [] 10 10 1021 (some ⟨0, []⟩) [])) = some ⟨10, 11, 1022, some ⟨0, [0]⟩⟩ ∧
    work (exec (.deferC11 2046) (st [] 11 11 2045 (some ⟨0, []⟩) [])) = some ⟨11, 12, 2046, some ⟨0, [0]⟩⟩ ∧
    work (exec (.deferC12 4094) (st [] 12 12 4093 (some ⟨0, []⟩) [])) = some ⟨12, 12, 4094, some ⟨0, [0]⟩⟩ := by
  decide +kernel

/-- R174's worked example, vector T6, the smallest illegal value, vector T6b, and vector T26's fault at 10 bits. -/
theorem test_bad :
    seen (step (st [0x80, 0x10, 0x60, 0x80] 18 9 257 (some ⟨0x41, []⟩) [])) =
      some ⟨.fault, false, .outOfRange, 260, 18, [], 0⟩ ∧
    seen (step (st [0x80, 0x10, 0x60, 0x60] 18 9 257 (some ⟨0x41, []⟩) [])) =
      some ⟨.fault, false, .outOfRange, 259, 18, [], 0⟩ ∧
    seen (step (st [0b10000000, 0b10000000] 0 10 511 (some ⟨0xFA, [0xFB]⟩) [])) =
      some ⟨.fault, false, .outOfRange, 514, 0, [], 0⟩ := by decide +kernel

/-- R153: the same nine bits `100000010` are BADFIRST in state NOPREV and DEFER in state HASPREV (vectors T5 and T6c). -/
theorem test_asymmetry :
    (nextOf (step (st [0x81, 0x00] 0 9 257 none []))).map (·.phase) = some .fault ∧
    work (step (st [0x81, 0x00] 0 9 257 (some ⟨0x41, []⟩) [])) = some ⟨9, 9, 258, some ⟨0x41, [0x41]⟩⟩ := by decide +kernel

/-- R149: end of input, vectors T11 and T7. -/
theorem test_eof :
    seen (step (st [] 0 9 257 none [])) = some ⟨.done, true, .noFault, 0, 0, [], 0⟩ ∧
    seen (step (st [0x80, 0x10, 0x40] 18 9 257 (some ⟨0x41, []⟩) [])) = some ⟨.done, true, .noFault, 0, 0, [], 0⟩ := by
  decide +kernel

/-- R175: the guard, on a state no run reaches: slot 258 is empty though `maxCode` says it is assigned. -/
theorem test_reserved_guard :
    seen (exec (.refC9 258) (st [] 18 9 258 (some ⟨1, []⟩) [])) = some ⟨.fault, false, .reserved, 258, 9, [], 0⟩ := by
  decide +kernel

/-- R219, R103, R127, R223 (b): what a step refuses or stops on. -/
theorem test_stops :
    step { st [0x80, 0x40] 0 9 257 none [] with startReq := true } = .refused .startDuringRun ∧
    step (st [0x00, 0x00] 0 10 510 none []) = .refused .noRow ∧
    step (st [0x00, 0x00] 0 13 510 none []) = .refused .widthOutOfRange ∧
    step { st [0x80, 0x40] 0 9 257 none [] with input := [] } = .fault .inputByteAbsent := by
  refine ⟨rfl, ?_, ?_, ?_⟩ <;> rfl

/-- Section 3.10: the status words of the four runs, from the fields each run ends with. -/
theorem test_status_words :
    hostRead 0 { State.reset with phase := .fault, fcause := .afterReset } = some 0x0B ∧
    hostRead 0 { State.reset with phase := .done } = some 0x02 ∧
    hostRead 0 { State.reset with phase := .done, trunc := true } = some 0x06 ∧
    hostRead 0 { State.reset with phase := .fault, fcause := .outOfRange } = some 0x13 ∧
    hostRead 1 { State.reset with phase := .fault, fcode := 260 } = some 0x104 := by decide +kernel

/-- R217: START after a fault sets the decode-start values and keeps the input. -/
theorem test_start :
    (nextOf (step { st [0x80, 0x40] 9 10 600 (some ⟨1, []⟩) [(258, ⟨1, [1]⟩)] with
      phase := .fault, fcause := .outOfRange, fcode := 700, fpos := 9, out := [1], outCount := 1, startReq := true })) =
    some (start { State.reset with input := [(0, 0x80), (1, 0x40)], len := 2 }) := by decide +kernel

/-- R223 (a), (d): with START issued and not yet taken, neither another input nor another START is accepted. -/
theorem test_host_after_start :
    hostPrepare [0x81] { State.reset with startReq := true } = .refused .inputChangeDuringRun ∧
    hostStart { State.reset with startReq := true } = .refused .startDuringRun ∧
    hostStart { State.reset with phase := .done } = .next { State.reset with phase := .done, startReq := true } :=
  ⟨rfl, rfl, rfl⟩

/-- R226, R37: after a faulted run START is issued; the host reads phase RUN at once, the cleared record, and no result. -/
theorem test_host_sees_start :
    let s := { State.reset with phase := .fault, fcause := .outOfRange, fcode := 260, fpos := 18, outCount := 1, out := [0x41] }
    hostRead 0 s = some 0x13 ∧ hostRead 1 s = some 0x104 ∧
    hostRead 0 { s with startReq := true } = some 1 ∧ hostRead 1 { s with startReq := true } = some 0 ∧
    hostRead 3 { s with startReq := true } = some 0 ∧ hostResult { s with startReq := true } = none :=
  ⟨rfl, rfl, rfl, rfl, rfl, rfl⟩

/-- notes/assumptions/17.md: table words, and the step that runs them from power-up. -/
theorem test_decodeTableWord :
    decodeTableWord 16 256 = some .clearC9 ∧ decodeTableWord 16 257 = some .endC9 ∧
    decodeTableWord 16 65 = some (.firstC9 65) ∧ decodeTableWord 16 258 = some (.badFirstC9 258) ∧
    decodeTableWord 10 65 = some (.litC10 65) ∧ decodeTableWord 16 1023 = some (.badC10 1023) ∧
    decodeTableWord 12 2046 = some (.refC12 2046) := by decide +kernel

theorem test_withFetchWord :
    seen (step (State.reset.withFetchWord 16 65)) = some ⟨.run, false, .noFault, 0, 0, [65], 1⟩ ∧
    work (step (State.reset.withFetchWord 11 2)) = some ⟨11, 11, 1023, some ⟨2, []⟩⟩ ∧
    seen (step (State.reset.withFetchWord 12 4095)) = some ⟨.fault, false, .outOfRange, 4095, 0, [], 0⟩ := by decide +kernel

/-- R216: `decode` on vectors T1 and T13. -/
theorem test_decodeStream :
    decodeStream [0x80, 0x40, 0x40] = some (.ok [] false) ∧
    decodeStream [0x81, 0x00] = some (.error .afterReset 258 0 []) := by decide +kernel

/-! ### Witnesses: the hypotheses of each obligation, met together -/

/-- The dictionary invariant, for a state just reset, or just reset and then past a `FIRST`. -/
theorem dictInv_of_literals {s : State} (hd : s.dict = literalEntries) (hm : s.maxCode = 257) (hw : s.width = 9)
    (hp : s.prev = none ∨ ∃ b : Byte, s.prev = some ⟨b, []⟩) : DictInv s := by
  have hr : ∀ c, s.dict.read c = if c < 256 then some (ByteSeq.single (BitVec.ofNat 8 c)) else none := by
    intro c; rw [hd]; exact literalEntries_read c
  refine ⟨by omega, by omega, by rw [hw, hm]; rfl, fun c h => by rw [hr, if_pos h], by rw [hr]; rfl, by rw [hr]; rfl,
    fun c h1 h2 => by omega, fun c h => by rw [hr, if_neg (by omega)], ?_, fun _ => hm⟩
  intro p h
  rcases hp with h0 | ⟨b, h0⟩
  · rw [h0] at h; cases h
  · rw [h0] at h
    cases h
    refine ⟨b.toNat, by have := b.isLt; omega, ?_⟩
    rw [hr, if_pos b.isLt]
    simp [ByteSeq.single]

/-- Vector T3 just past its `FIRST 'A'`. -/
def mid : State := st [0x80, 0x10, 0x48, 0x50, 0x28, 0x24, 0x04] 18 9 257 (some ⟨0x41, []⟩) []

/-- Vector T7 with 6 bits left. -/
def short : State := st [0x80, 0x10, 0x40] 18 9 257 (some ⟨0x41, []⟩) []

/-- A run in progress at a width, with an entry in slot 258. -/
def at_ (width maxCode : Nat) (prev : Option ByteSeq) : State := st [0x00, 0x00] 12 width maxCode prev [(258, ⟨1, [2]⟩)]

theorem mid_dict : mid.dict = literalEntries := List.append_nil _

theorem dictInv_mid : DictInv mid := dictInv_of_literals mid_dict rfl rfl (.inr ⟨0x41, rfl⟩)

theorem cursorInv_mid : CursorInv mid :=
  ⟨by decide, by decide, by decide, by decide, fun _ => ⟨0x48, by decide, by decide⟩⟩

theorem hostDuty_mid : HostDuty mid := ⟨by decide, fun _ => rfl⟩

theorem step_mid : ∃ t, step mid = .next t ∧ t.phase = .run := ⟨_, rfl, rfl⟩

theorem test_witness_DecodeOfEncodeIsIdentity :
    (Instr.refC9 258).wf = true ∧ (Instr.refC9 258).applies ⟨9, 258, true⟩ = true ∧
    (Instr.deferC12 4095).wf = true ∧ (Instr.deferC12 4095).applies ⟨12, 4094, true⟩ = true := by decide

theorem test_witness_DecodedInstructionIsTheCodeRead :
    decodeBytes ⟨9, 257, true⟩ [0x81, 0x00] = .ok (.deferC9 258) := by decide

/-- Each class of R96 at the ends of its range: codes 0, 255, 256, 257, 258, `maxCode`, `maxCode + 1`, `maxCode + 2`, and `EOF`. -/
theorem test_witness_HeldCodesAreClassified :
    (∀ v ∈ [0, 255, 256, 257, 258, 300, 301, 302, 511],
      let s := st (layout 9 v) 0 9 300 (some ⟨1, []⟩) []
      (s.phase = .run ∧ s.startReq = false ∧ s.prev ≠ none ∧ 257 ≤ s.maxCode) ∧
      s.pos + s.width ≤ 8 * s.len ∧ assemble (streamBit s) s.pos s.width = some v) ∧
    (∃ t, getCode short.width short = .eof t) :=
  ⟨by decide +kernel, _, getCode_of_short (by decide) (by decide)⟩

/-- The reads that the list above speaks of are `GETCODE` answers. -/
theorem test_witness_HeldCodesAreClassified_read :
    ∃ t, getCode mid.width mid = .code 66 t :=
  ⟨_, getCode_of_bits (by decide) (by decide) (by decide +kernel)⟩

/-- Each class of R97 at the ends of its range: codes 0, 255, 256, 257, 258, 511. -/
theorem test_witness_FirstCodesAreClassified :
    (∀ v ∈ [0, 255, 256, 257, 258, 511],
      let s := st (layout 9 v) 0 9 257 none []
      (s.phase = .run ∧ s.startReq = false ∧ s.prev = none ∧ s.width = 9) ∧
      s.pos + s.width ≤ 8 * s.len ∧ assemble (streamBit s) s.pos s.width = some v) ∧
    (∃ t, getCode 9 (buf [0x80] 0) = .eof t) :=
  ⟨by decide +kernel, _, getCode_of_short (by decide) (by decide)⟩

theorem test_witness_AsymmetryAfterReset :
    (buf [] 0).width = 9 ∧ (buf [] 0).maxCode = 257 ∧ (buf [] 0).prev = none ∧
    mid.width = 9 ∧ mid.maxCode = 257 ∧ mid.prev ≠ none := by decide

theorem test_witness_AllOnesIsBadAndFullTableHasNoBad : 257 ≤ 257 ∧ 2045 ≤ 2045 ∧ 4095 < 4096 := by decide

/-- The exact fit at 9 and at 12 bits. -/
theorem test_witness_GetCodeReadsMsbFirst :
    ((buf [0x80, 0x40, 0xC0] 15).pos + 9 = 8 * (buf [0x80, 0x40, 0xC0] 15).len ∧ HostDuty (buf [0x80, 0x40, 0xC0] 15)) ∧
    ((buf [0xFF, 0xFF, 0xFF] 12).pos + 12 = 8 * (buf [0xFF, 0xFF, 0xFF] 12).len ∧ HostDuty (buf [0xFF, 0xFF, 0xFF] 12)) :=
  ⟨⟨by decide, by decide, fun _ => rfl⟩, by decide, by decide, fun _ => rfl⟩

theorem test_witness_GetCodeShortInputIsEof :
    8 * (buf [0x80] 0).len < (buf [0x80] 0).pos + 9 ∧ 8 * (buf [] 0).len < (buf [] 0).pos + 12 := by decide

theorem test_witness_GetCodeRefusesOtherWidths :
    (¬(9 ≤ 8 ∧ 8 ≤ 12) ∧ ¬(9 ≤ 13 ∧ 13 ≤ 12)) ∧
    (at_ 8 257 none).phase = .run ∧ (at_ 8 257 none).startReq = false ∧ (at_ 8 257 none).width = 8 ∧
    (at_ 13 257 none).phase = .run ∧ (at_ 13 257 none).startReq = false ∧ (at_ 13 257 none).width = 13 := by decide

/-- A code of three bytes, and one whose third byte lies beyond the buffer. -/
theorem test_witness_GetCodeByteFormula :
    ((buf [0x12, 0x34, 0x56] 7).pos + 12 ≤ 8 * (buf [0x12, 0x34, 0x56] 7).len ∧ HostDuty (buf [0x12, 0x34, 0x56] 7)) ∧
    ((buf [0x12, 0x34, 0x56] 12).pos + 12 ≤ 8 * (buf [0x12, 0x34, 0x56] 12).len ∧ HostDuty (buf [0x12, 0x34, 0x56] 12)) :=
  ⟨⟨by decide, by decide, fun _ => rfl⟩, by decide, by decide, fun _ => rfl⟩

theorem cursorInv_short : CursorInv short :=
  ⟨by decide, by decide, by decide, by decide, fun _ => ⟨0x40, by decide, by decide⟩⟩

theorem test_witness_AccumulatorFormAgreesWithCursorForm :
    (CursorInv mid ∧ ∃ v t, getCode 9 mid = .code v t) ∧ (CursorInv short ∧ ∃ t, getCode 9 short = .eof t) :=
  ⟨⟨cursorInv_mid, 66, _, getCode_of_bits (by decide) (by decide) (by decide +kernel)⟩,
    cursorInv_short, _, getCode_of_short (by decide) (by decide)⟩

theorem test_witness_AccumulatorStaysSmall :
    (CursorInv mid ∧ HostDuty mid ∧ mid.pos + 9 ≤ 8 * mid.len) ∧
    (CursorInv mid ∧ HostDuty mid ∧ mid.pos + 12 ≤ 8 * mid.len) :=
  ⟨⟨cursorInv_mid, hostDuty_mid, by decide⟩, cursorInv_mid, hostDuty_mid, by decide⟩

/-- Each width's clause. -/
theorem test_witness_ClearResets :
    ∀ p ∈ [(9, 257), (10, 510), (11, 1022), (12, 4095)],
      (at_ p.1 p.2 none).phase = .run ∧ (at_ p.1 p.2 none).width = p.1 := by decide

theorem test_witness_EndStopsWithoutTruncation :
    ∀ p ∈ [(9, 509), (10, 1021), (11, 2045), (12, 2046)],
      (at_ p.1 p.2 none).phase = .run ∧ (at_ p.1 p.2 none).width = p.1 := by decide

/-- The smallest and the largest literal. -/
theorem test_witness_FirstEmitsAndRecords :
    ∀ b ∈ [(0 : Byte), 255],
      (at_ 9 257 none).phase = .run ∧ (at_ 9 257 none).width = 9 ∧ (at_ 9 257 none).prev = none ∧
        (at_ 9 257 none).dict.read b.toNat = some (ByteSeq.single b) := by decide +kernel

/-- The smallest and the largest code. -/
theorem test_witness_BadFirstFaults :
    ∀ code ∈ [(258 : BitVec 9), 511],
      (at_ 9 257 none).phase = .run ∧ (at_ 9 257 none).width = 9 ∧ (at_ 9 257 none).prev = none ∧ 258 ≤ code.toNat := by decide

theorem test_witness_LitEmitsInsertsRecords :
    ∀ p ∈ [(9, 257), (10, 510), (11, 1022), (12, 4095)], ∀ b ∈ [(0 : Byte), 255],
      let s := at_ p.1 p.2 (some ⟨1, []⟩)
      s.phase = .run ∧ s.width = p.1 ∧ s.prev = some ⟨1, []⟩ ∧ s.dict.read b.toNat = some (ByteSeq.single b) := by decide +kernel

theorem test_witness_RefEmitsInsertsRecords :
    ∀ p ∈ [(9, 258), (10, 510), (11, 1022), (12, 4095)],
      let s := at_ p.1 p.2 (some ⟨1, []⟩)
      s.phase = .run ∧ s.width = p.1 ∧ s.prev = some ⟨1, []⟩ ∧
        258 ≤ (258#9).toNat ∧ (258#9).toNat ≤ s.maxCode ∧ s.dict.read (258#9).toNat = some ⟨1, [2]⟩ ∧
        s.dict.read (258#10).toNat = some ⟨1, [2]⟩ ∧ s.dict.read (258#11).toNat = some ⟨1, [2]⟩ ∧
        s.dict.read (258#12).toNat = some ⟨1, [2]⟩ := by decide +kernel

/-- The smallest and the largest deferred code of each width. -/
theorem test_witness_DeferEmitsInsertsRecords :
    (∀ m ∈ [257, 509], let s := at_ 9 m (some ⟨1, []⟩)
      s.phase = .run ∧ s.width = 9 ∧ 257 ≤ s.maxCode ∧ (BitVec.ofNat 9 (m + 1)).toNat = s.maxCode + 1) ∧
    (∀ m ∈ [510, 1021], let s := at_ 10 m (some ⟨1, []⟩)
      s.phase = .run ∧ s.width = 10 ∧ 257 ≤ s.maxCode ∧ (BitVec.ofNat 10 (m + 1)).toNat = s.maxCode + 1) ∧
    (∀ m ∈ [1022, 2045], let s := at_ 11 m (some ⟨1, []⟩)
      s.phase = .run ∧ s.width = 11 ∧ 257 ≤ s.maxCode ∧ (BitVec.ofNat 11 (m + 1)).toNat = s.maxCode + 1) ∧
    (∀ m ∈ [2046, 4094], let s := at_ 12 m (some ⟨1, []⟩)
      s.phase = .run ∧ s.width = 12 ∧ 257 ≤ s.maxCode ∧ (BitVec.ofNat 12 (m + 1)).toNat = s.maxCode + 1) := by decide

/-- The smallest bad code and the largest one of each width. -/
theorem test_witness_BadFaults :
    (∀ c ∈ [(259 : BitVec 9), 511], let s := at_ 9 257 (some ⟨1, []⟩)
      s.phase = .run ∧ s.width = 9 ∧ s.prev ≠ none ∧ 257 ≤ s.maxCode ∧ s.maxCode + 1 < c.toNat) ∧
    (∀ c ∈ [(512 : BitVec 10), 1023], let s := at_ 10 510 (some ⟨1, []⟩)
      s.phase = .run ∧ s.width = 10 ∧ s.prev ≠ none ∧ 257 ≤ s.maxCode ∧ s.maxCode + 1 < c.toNat) ∧
    (∀ c ∈ [(1024 : BitVec 11), 2047], let s := at_ 11 1022 (some ⟨1, []⟩)
      s.phase = .run ∧ s.width = 11 ∧ s.prev ≠ none ∧ 257 ≤ s.maxCode ∧ s.maxCode + 1 < c.toNat) ∧
    (∀ c ∈ [(2048 : BitVec 12), 4095], let s := at_ 12 2046 (some ⟨1, []⟩)
      s.phase = .run ∧ s.width = 12 ∧ s.prev ≠ none ∧ 257 ≤ s.maxCode ∧ s.maxCode + 1 < c.toNat) :=
  ⟨by decide, by decide, by decide, by decide⟩

/-- For `REF` slot 259 is empty; for `FIRST` and `LIT` all of the dictionary is. -/
theorem test_witness_EmptySlotRaisesReserved :
    ((at_ 9 259 (some ⟨1, []⟩)).phase = .run ∧
      (Instr.refC9 259).applies (decodeCtx (at_ 9 259 (some ⟨1, []⟩))) = true ∧
      (at_ 9 259 (some ⟨1, []⟩)).dict.read (Instr.refC9 259).code = none) ∧
    (let s : State := { at_ 9 257 none with dict := [] };
      s.phase = .run ∧ (Instr.firstC9 7).applies (decodeCtx s) = true ∧ s.dict.read (Instr.firstC9 7).code = none) ∧
    (let s : State := { at_ 10 600 (some ⟨1, []⟩) with dict := [] };
      s.phase = .run ∧ (Instr.litC10 7).applies (decodeCtx s) = true ∧ s.dict.read (Instr.litC10 7).code = none) := by
  decide +kernel

/-- Each side of each threshold, and the last slot. -/
theorem test_witness_WidthGrowsAtTheThresholds :
    ∀ m ∈ [257, 508, 509, 510, 1021, 2045, 4094],
      257 ≤ (at_ (widthFor m) m none).maxCode ∧ (at_ (widthFor m) m none).maxCode < 4095 ∧
        (at_ (widthFor m) m none).width = widthFor (at_ (widthFor m) m none).maxCode := by decide

theorem test_witness_RepeatedClearChangesNothing :
    ∃ t, Instr.clearC10.cls = .clear ∧ exec .clearC10 (at_ 10 600 none) = .next t := ⟨_, rfl, rfl⟩

/-- An outcome that is a next state with a property, found by evaluation. -/
theorem next_of_any {r : Result} {p : State → Bool} (h : (nextOf r).any p = true) : ∃ t, r = .next t ∧ p t = true := by
  cases r with
  | next t => exact ⟨t, rfl, h⟩
  | fault _ => cases h
  | refused _ => cases h

/-- A code of each class that gives a next state, for CodesLeaveInputAndCursor, CodesWriteOnlyTheNextSlot and EmissionAndStatusFrame. -/
theorem test_witness_frames :
    ∀ p ∈ [(Instr.clearC9, at_ 9 257 none), (.endC9, at_ 9 257 none), (.firstC9 1, at_ 9 257 none),
        (.litC9 1, at_ 9 258 (some ⟨1, []⟩)), (.refC9 258, at_ 9 258 (some ⟨1, []⟩)), (.deferC9 259, at_ 9 258 (some ⟨1, []⟩))],
      ∃ t, exec p.1 p.2 = .next t ∧ decide (t.phase ≠ .fault) = true := by
  have h : ∀ p ∈ [(Instr.clearC9, at_ 9 257 none), (.endC9, at_ 9 257 none), (.firstC9 1, at_ 9 257 none),
        (.litC9 1, at_ 9 258 (some ⟨1, []⟩)), (.refC9 258, at_ 9 258 (some ⟨1, []⟩)), (.deferC9 259, at_ 9 258 (some ⟨1, []⟩))],
      (nextOf (exec p.1 p.2)).any (fun t => decide (t.phase ≠ .fault)) = true := by decide +kernel
  exact fun p hp => next_of_any (h p hp)

/-- The two classes that fault, for FaultsArePrecise. -/
theorem test_witness_FaultsArePrecise :
    ∀ p ∈ [(Instr.badFirstC9 258, at_ 9 257 none), (.badC9 260, at_ 9 258 (some ⟨1, []⟩))],
      ∃ t, exec p.1 p.2 = .next t ∧ decide (t.phase = .fault) = true := by
  have h : ∀ p ∈ [(Instr.badFirstC9 258, at_ 9 257 none), (.badC9 260, at_ 9 258 (some ⟨1, []⟩))],
      (nextOf (exec p.1 p.2)).any (fun t => decide (t.phase = .fault)) = true := by decide +kernel
  exact fun p hp => next_of_any (h p hp)

theorem test_witness_StepRunsTheDecodedCode :
    mid.phase = .run ∧ mid.startReq = false ∧ mid.pos + mid.width ≤ 8 * mid.len ∧
    assemble (streamBit mid) mid.pos mid.width = some 66 ∧ decode (decodeCtx mid) 66 = .ok (.litC9 66) := by decide +kernel

theorem test_witness_TruncatedStreamStops :
    short.phase = .run ∧ short.startReq = false ∧ 9 ≤ short.width ∧ short.width ≤ 12 ∧
    8 * short.len < short.pos + short.width := by decide

theorem test_witness_TruncOnlyAtEndOfInput :
    short.phase = .run ∧ short.trunc = false ∧ ∃ t, step short = .next t ∧ t.trunc = true := ⟨rfl, rfl, _, rfl, rfl⟩

/-- CursorOnlyMovesForward, OutputIsOnlyExtended, MonotoneWithinAnEpoch: a code, and the end of the input. -/
theorem test_witness_run_steps :
    (mid.phase = .run ∧ ∃ t, step mid = .next t) ∧ (short.phase = .run ∧ ∃ t, step short = .next t) :=
  ⟨⟨rfl, _, rfl⟩, rfl, _, rfl⟩

/-- BytesPerStep, EntryLengthsAreBounded, ReservedCauseIsUnreachable, StepKeepsDictionaryInvariant, EveryStepCanBeTaken. -/
theorem test_witness_DictInv :
    DictInv mid ∧ HostDuty mid ∧ mid.phase = .run ∧ mid.fcause ≠ .reserved ∧ ∃ t, step mid = .next t :=
  ⟨dictInv_mid, hostDuty_mid, rfl, by decide, _, rfl⟩

/-- EntryLengthsAreBounded, clause by clause: a literal's slot and a previous sequence. -/
theorem test_witness_EntryLengthsAreBounded :
    DictInv mid ∧ mid.dict.read 255 = some ⟨255, []⟩ ∧ mid.prev = some ⟨0x41, []⟩ :=
  ⟨dictInv_mid, by decide +kernel, rfl⟩

/-- The same statement's dynamic clause: the state after vector T3's third code, at slot 258. -/
theorem test_witness_EntryLengthsAreBounded_dynamic :
    DictInv (st [] 27 9 258 (some ⟨0x42, []⟩) [(258, ⟨0x41, [0x42]⟩)]) ∧
    (st [] 27 9 258 (some ⟨0x42, []⟩) [(258, ⟨0x41, [0x42]⟩)]).dict.read 258 = some ⟨0x41, [0x42]⟩ := by
  have hr : ∀ c, (st [] 27 9 258 (some ⟨0x42, []⟩) [(258, ⟨0x41, [0x42]⟩)]).dict.read c =
      if c < 256 then some (ByteSeq.single (BitVec.ofNat 8 c)) else if c = 258 then some ⟨0x41, [0x42]⟩ else none := by
    intro c
    have key : (st [] 27 9 258 (some ⟨0x42, []⟩) [(258, ⟨0x41, [0x42]⟩)]).dict =
        Dictionary.write literalEntries 258 ⟨0x41, [0x42]⟩ := by decide +kernel
    rw [key]
    by_cases h : c = 258
    · subst h; rw [Dictionary.read_write_same]; rfl
    · rw [Dictionary.read_write_other _ _ h, literalEntries_read]; simp [h]
  refine ⟨⟨by decide, by decide, rfl, fun c h => by rw [hr, if_pos h], by rw [hr]; rfl, by rw [hr]; rfl, ?_, ?_, ?_,
    fun h => by cases h⟩, by rw [hr]; rfl⟩
  · intro c h1 h2
    have : c = 258 := by simp only [st] at h2; omega
    subst this
    exact ⟨0x41, ⟨0x41, []⟩, 0x42, by decide, by rw [hr]; rfl, by rw [hr]; rfl⟩
  · intro c h
    simp only [st] at h
    rw [hr, if_neg (by omega), if_neg (by omega)]
  · intro p h
    cases h
    exact ⟨0x42, by decide, by rw [hr]; rfl⟩

theorem test_witness_NewEntryIsVisibleToTheNextCode :
    DictInv mid ∧ mid.maxCode < 4095 ∧ (Instr.litC9 66).cls = .lit ∧ ∃ t, exec (.litC9 66) mid = .next t :=
  ⟨dictInv_mid, by decide, rfl, _, rfl⟩

theorem test_witness_StartSetsDecodeStartValues :
    ∀ p ∈ [Phase.idle, .done, .fault],
      { State.reset with phase := p, startReq := true }.phase ≠ .run ∧
      { State.reset with phase := p, startReq := true }.startReq = true := by decide

theorem test_witness_PhasesAreStableUntilStart :
    (State.reset.phase ≠ .run ∧ State.reset.startReq = false) ∧
    ({ mid with startReq := true }.phase = .run ∧ { mid with startReq := true }.startReq = true) := by decide

theorem test_witness_PhaseTransitions : ∃ t, step State.reset = .next t := ⟨_, rfl⟩

/-- A run in progress; START waiting; and each way a run has ended, START not issued. -/
theorem test_witness_StatusRegisterLayout :
    mid.phase = .run ∧ { State.reset with startReq := true }.startReq = true ∧
    ({ State.reset with phase := .done }.phase = .done ∧ { State.reset with phase := .done }.startReq = false) ∧
    ({ State.reset with phase := .fault }.phase = .fault ∧ { State.reset with phase := .fault }.startReq = false) :=
  ⟨rfl, rfl, ⟨rfl, rfl⟩, rfl, rfl⟩

/-- Before START; during a run; and with START issued and not yet taken, in each phase that accepts it. -/
theorem test_witness_HostPreparesAndStarts :
    (State.reset.phase ≠ .run ∧ State.reset.startReq = false) ∧ mid.phase = .run ∧
    ∀ p ∈ [Phase.idle, .done, .fault], { State.reset with phase := p, startReq := true }.startReq = true := by decide

theorem test_witness_StepKeepsCursorInvariant :
    (mid.phase = .run → CursorInv mid) ∧ ∃ t, step mid = .next t ∧ t.phase = .run := ⟨fun _ => cursorInv_mid, _, rfl, rfl⟩

theorem test_witness_StepKeepsStatusInvariant : StatusInv mid ∧ ∃ t, step mid = .next t :=
  ⟨⟨rfl, by decide, by decide, by decide⟩, _, rfl⟩

theorem test_witness_StepKeepsStoresCanonical : StoresWf mid ∧ ∃ t, step mid = .next t :=
  ⟨⟨Memory.wf_ofBytesFrom 0 _, by unfold Dictionary.wf; rw [mid_dict]; exact literalEntries_wf⟩, _, rfl⟩

theorem test_witness_EveryRunEnds : HostDuty mid ∧ HostDuty State.reset := ⟨hostDuty_mid, by decide, fun _ => rfl⟩

/-- The code of `mid` stands in bytes 2 and 3; byte 0 of the other input differs. -/
theorem test_witness_StepReadsOnlyItsCode :
    let m : Memory := Memory.ofBytesFrom 0 [0xFF, 0x10, 0x48, 0x50, 0x28, 0x24, 0x04]
    mid.phase = .run ∧ CursorInv mid ∧
      (∀ k, mid.pos / 8 ≤ k → k ≤ (mid.pos + mid.width - 1) / 8 → m.read k = mid.input.read k) ∧
      ∃ t, step mid = .next t := by
  refine ⟨rfl, cursorInv_mid, ?_, _, rfl⟩
  intro k h1 h2
  have h3 : 2 ≤ k ∧ k ≤ 3 := ⟨h1, h2⟩
  obtain rfl | rfl : k = 2 ∨ k = 3 := by omega
  · rfl
  · rfl

theorem test_witness_FetchWordIsRunNext :
    decodeTableWord 16 65 = some (.firstC9 65) ∧ decodeTableWord 16 4095 = some (.badC12 4095) := by decide +kernel

end Sys2Proof.Tests
end

section
/-!
PROOFS. The 10_state family: what a code's effect leaves unchanged, and the invariants every step keeps.
-/

namespace Sys2Proof

/-- R91: no code exceeds 4095. -/
theorem Instr.code_le (i : Instr) : i.code ≤ 4095 := by
  cases i <;> simp only [Instr.code, Config.clearCode, Config.endCode] <;> omega

/-- R92: the bits of a code from bit `m` on are the less significant part of its value. -/
theorem assemble_suffix {bit : Nat → Option Bool} {p m n v : Nat} (h : assemble bit p (m + n) = some v) :
    assemble bit (p + m) n = some (v % 2 ^ n) := by
  have hbits := assemble_isSome.1 ⟨v, h⟩
  obtain ⟨u, hu⟩ := assemble_isSome.2 fun j (hj : j < m) => hbits j (by omega)
  obtain ⟨w, hw⟩ := assemble_isSome.2 fun j (hj : j < n) => by
    rw [Nat.add_assoc]; exact hbits (m + j) (by omega)
  obtain rfl : u * 2 ^ n + w = v := by simpa [h] using (assemble_append hu hw).symm
  rw [hw, Nat.mul_add_mod_of_lt (assemble_lt hw)]

end Sys2Proof

namespace Sys2Proof.Machine

/-! ### The effect of a code -/

/-- `exec_cases` grouped by effect: what the state after the code `i` can be. `fault` stands for all three causes, `extend` for
LIT, REF and DEFER, whose emitted sequence `e` was looked up or is the one just inserted. -/
inductive CodeEffect (i : Instr) (s : State) : State → Prop
  | reset (hc : i.cls = .clear) : CodeEffect i s (resetDictionary s)
  | stop (hc : i.cls = .endOfInfo) : CodeEffect i s (stop false s)
  | fault (cause : Cause) (hne : cause ≠ .noFault) : CodeEffect i s (raise cause i.code (codeStart i s) s)
  | record (e : ByteSeq) (hc : i.cls = .first) (hl : lookup s i.code = some e) :
      CodeEffect i s (setPrev e (emit e.toList s))
  | extend (p e : ByteSeq) (b : Byte) (hc : i.cls = .lit ∨ i.cls = .ref ∨ i.cls = .defer) (hp : s.prev = some p)
      (hsrc : lookup s i.code = some e ∨ i.cls = .defer ∧ e = p.snoc b) :
      CodeEffect i s (setPrev e (insertEntry (p.snoc b) (emit e.toList s)))

/-- R38: every next state of a code is one of the five effects. -/
theorem exec_effect {i : Instr} {s t : State} (h : exec i s = .next t) : CodeEffect i s t := by
  rcases exec_cases h with ⟨hc, rfl⟩ | ⟨hc, rfl⟩ | ⟨-, rfl⟩ | ⟨-, rfl⟩ | ⟨-, -, rfl⟩ | ⟨hc, e, hl, rfl⟩ |
    ⟨hc, p, e, hp, hl, rfl⟩ | ⟨hc, p, hp, rfl⟩
  · exact .reset hc
  · exact .stop hc
  · exact .fault _ (by decide)
  · exact .fault _ (by decide)
  · exact .fault _ (by decide)
  · exact .record e hc hl
  · exact .extend p e _ (hc.imp_right .inl) hp (.inl hl)
  · exact .extend p _ _ (.inr (.inr hc)) hp (.inr ⟨hc, rfl⟩)

/-! ### Frames -/

/-- R38: no code touches the input, its length, the cursor, the accumulator or the START line. -/
theorem exec_keeps_input_and_cursor {i : Instr} {s t : State} (h : exec i s = .next t) :
    t.input = s.input ∧ t.len = s.len ∧ t.pos = s.pos ∧ t.accum = s.accum ∧ t.startReq = s.startReq := by
  cases exec_effect h with
  | reset | stop | fault => exact ⟨rfl, rfl, rfl, rfl, rfl⟩
  | record | extend => simp

/-- What `MemRead` answers depends on the input and `LEN` alone. -/
theorem memRead_congr {s t : State} (hi : t.input = s.input) (hl : t.len = s.len) (a : Nat) :
    memRead t a = memRead s a := by
  rw [memRead, memRead, hasMore, hasMore, hi, hl]

/-- Settles O26, from the frame of `exec`. -/
theorem codesLeaveInputAndCursor : Obligations.CodesLeaveInputAndCursor := by
  intro i s t h
  obtain ⟨hi, hl, hp, ha, hr⟩ := exec_keeps_input_and_cursor h
  exact ⟨hi, hl, hp, ha, hr, memRead_congr hi hl⟩

/-- Settles O27: of the five effects only the reset and the insertion write the dictionary. -/
theorem codesWriteOnlyTheNextSlot : Obligations.CodesWriteOnlyTheNextSlot := by
  intro i s t h
  cases exec_effect h with
  | reset hc => simp [hc]
  | stop | fault => exact ⟨fun _ _ _ => rfl, fun _ => ⟨rfl, rfl, fun _ => rfl⟩⟩
  | record => simp
  | extend p e b hc =>
    refine ⟨fun _ a ha => ?_, fun hc' => ?_⟩
    · rw [setPrev_dict, insertEntry_read_other _ _ (by simpa using ha), emit_dict]
    · rcases hc with hc | hc | hc <;> simp [hc] at hc'

/-- Settles O28: only `record` and `extend` emit, and only `stop` and `fault` write the status record. -/
theorem emissionAndStatusFrame : Obligations.EmissionAndStatusFrame := by
  intro i s t h
  cases exec_effect h with
  | reset => simp
  | stop hc => simp [hc]
  | fault => simp
  | record e hc => simp [hc]
  | extend p e b hc => rcases hc with hc | hc | hc <;> simp [hc]

/-! ### A step of a run -/

/-- R140: the state a code is carried out on, the cursor just past it. -/
def pastCode (s : State) : State :=
  { s with pos := s.pos + s.width, accum := (accumGetCode s s.width s.accum).2 }

/-- `step_run_cases` with the read carried out: a step of a run meets the end of the input, or carries a code out just past it. -/
theorem step_run_next {s t : State} (hp : s.phase = .run) (h : step s = .next t) :
    (8 * s.len < s.pos + s.width ∧ t = stop true { s with accum := (accumGetCode s s.width s.accum).2 }) ∨
    (∃ v i, getCode s.width s = .code v (pastCode s) ∧ exec i (pastCode s) = .next t) := by
  rcases (step_run_cases hp h).2 with ⟨u, hg, rfl⟩ | ⟨v, u, i, hg, -, hx⟩
  · obtain ⟨-, hshort, rfl⟩ := getCode_eof hg
    exact .inl ⟨hshort, rfl⟩
  · obtain ⟨-, -, -, -, rfl⟩ := getCode_code hg
    exact .inr ⟨v, i, hg, hx⟩

/-- R34: no code sets `trunc`. -/
theorem exec_trunc_false {i : Instr} {s t : State} (h : exec i s = .next t) (hs : s.trunc = false) :
    t.trunc = false := by
  cases exec_effect h with
  | stop => rfl
  | reset | fault => exact hs
  | record | extend => simpa using hs

/-- Settles O32: `trunc` is raised by the end of the input alone. -/
theorem truncOnlyAtEndOfInput : Obligations.TruncOnlyAtEndOfInput := by
  intro s t hp hs h ht
  rcases step_run_next hp h with ⟨hshort, rfl⟩ | ⟨v, i, -, hx⟩
  · exact ⟨hshort, rfl, rfl⟩
  · have : t.trunc = false := exec_trunc_false hx hs
    simp [this] at ht

/-! ### Insertion, `maxCode` and the width -/

/-- R181: an insertion raises the width by at most one. -/
theorem grownWidth_bounds (w m : Nat) : w ≤ grownWidth w m ∧ grownWidth w m ≤ w + 1 := by
  unfold grownWidth; split <;> omega

/-- R188: an insertion raises `maxCode` and the width by at most one each. -/
theorem insertEntry_bounds (e : ByteSeq) (s : State) :
    s.maxCode ≤ (insertEntry e s).maxCode ∧ (insertEntry e s).maxCode ≤ s.maxCode + 1 ∧
    s.width ≤ (insertEntry e s).width ∧ (insertEntry e s).width ≤ s.width + 1 := by
  by_cases hf : s.maxCode = 4095
  · rw [insertEntry_full hf]; omega
  · rw [insertEntry_room hf]
    exact ⟨Nat.le_succ _, le_rfl, grownWidth_bounds _ _⟩

/-- R31, R189: growth takes the width of one `maxCode` to that of the next. -/
theorem grownWidth_widthFor (m : Nat) : grownWidth (widthFor m) (m + 1) = widthFor (m + 1) := by
  simp only [grownWidth, widthFor, Config.wMax]
  split_ifs <;> omega

/-- R189: the width changes at the three thresholds alone. -/
theorem widthFor_succ_ne_iff (m : Nat) :
    widthFor (m + 1) ≠ widthFor m ↔ m + 1 = 510 ∨ m + 1 = 1022 ∨ m + 1 = 2046 := by
  unfold widthFor
  split_ifs <;> omega

/-- Settles O24: an insertion with room moves from `widthFor m` to `widthFor (m + 1)`. -/
theorem widthGrowsAtTheThresholds : Obligations.WidthGrowsAtTheThresholds := by
  intro s e _ hroom hw
  rw [insertEntry_room (by omega)]
  simp only [hw, grownWidth_widthFor]
  exact ⟨trivial, widthFor_succ_ne_iff s.maxCode⟩

/-- Settles O37: a code resets, leaves `maxCode` and the width alone, or inserts once. -/
theorem monotoneWithinAnEpoch : Obligations.MonotoneWithinAnEpoch := by
  intro s t hp h
  rcases step_run_next hp h with ⟨-, rfl⟩ | ⟨v, i, -, hx⟩
  · right; simp
  · cases exec_effect hx with
    | reset => exact .inl ⟨rfl, rfl, rfl⟩
    | stop | fault => right; simp [pastCode]
    | record => right; simp [pastCode]
    | extend p e b =>
      right
      simpa [pastCode] using insertEntry_bounds (p.snoc b) (emit e.toList (pastCode s))

/-! ### The dictionary invariant -/

/-- The dictionary invariant speaks of `maxCode`, the width, the dictionary and `prev` alone. -/
theorem DictInv.congr {s t : State} (h : DictInv s) (hm : t.maxCode = s.maxCode) (hw : t.width = s.width)
    (hd : t.dict = s.dict) (hp : t.prev = s.prev) : DictInv t := by
  obtain ⟨h1, h2, h3, h4, h5, h6, h7, h8, h9, h10⟩ := h
  constructor <;> simp only [hm, hw, hd, hp] <;> assumption

/-- R202: emitting keeps the invariant. -/
theorem DictInv.emit {s : State} (h : DictInv s) (bs : List Byte) : DictInv (emit bs s) := by
  rw [emit_eq]; exact h.congr rfl rfl rfl rfl

/-- R27, R40, R276: the invariant holds after a reset. -/
theorem dictInv_of_reset {s : State} (hm : s.maxCode = 257) (hw : s.width = 9) (hd : s.dict = literalEntries)
    (hp : s.prev = none) : DictInv s where
  maxCodeLow := by omega
  maxCodeHigh := by omega
  widthOfMaxCode := by rw [hm, hw]; rfl
  literals c hc := by rw [hd, literalEntries_read, if_pos hc]
  reservedClear := by rw [hd, literalEntries_read]; rfl
  reservedEnd := by rw [hd, literalEntries_read]; rfl
  dynamic c h1 h2 := by omega
  emptyAbove c hc := by rw [hd, literalEntries_read, if_neg (by omega)]
  prevIsEntry p h := by simp [hp] at h
  noPrevFresh _ := hm

/-- R185: a sequence looked up is an entry. -/
theorem lookup_some {s : State} {c : Nat} {e : ByteSeq} (h : lookup s c = some e) : s.dict.read c = some e := by
  unfold lookup at h
  split at h
  · cases h
  · exact h

/-- R29: an entry stands at or below `maxCode`. -/
theorem DictInv.le_maxCode {s : State} (h : DictInv s) {c : Nat} {e : ByteSeq} (hc : s.dict.read c = some e) :
    c ≤ s.maxCode := by
  by_contra hlt
  simp [h.emptyAbove c (by omega)] at hc

/-- R41: recording an entry keeps the invariant. -/
theorem DictInv.setPrev {s : State} (h : DictInv s) {c : Nat} {e : ByteSeq} (hc : s.dict.read c = some e) :
    DictInv (setPrev e s) :=
  { h with
    prevIsEntry := fun p hp => by
      obtain rfl : e = p := by simpa using hp
      exact ⟨c, h.le_maxCode hc, hc⟩
    noPrevFresh := by simp }

/-- An insertion leaves every slot at or below `maxCode` alone. -/
theorem insertEntry_read_of_le (e : ByteSeq) {s : State} {c : Nat} (h : c ≤ s.maxCode) :
    (insertEntry e s).dict.read c = s.dict.read c := insertEntry_read_other e s (by omega)

/-- R29, R42: inserting the previous sequence extended by a byte keeps the invariant. -/
theorem DictInv.insertEntry {s : State} (h : DictInv s) {p : ByteSeq} (hp : s.prev = some p) (b : Byte) :
    DictInv (insertEntry (p.snoc b) s) := by
  by_cases hf : s.maxCode = 4095
  · rwa [insertEntry_full hf]
  have hlow := h.maxCodeLow
  have hhigh := h.maxCodeHigh
  have hm : (Machine.insertEntry (p.snoc b) s).maxCode = s.maxCode + 1 := by rw [insertEntry_room hf]
  have hnew : (Machine.insertEntry (p.snoc b) s).dict.read (s.maxCode + 1) = some (p.snoc b) := by
    rw [insertEntry_room hf]; exact Dictionary.read_write_same _ _ _
  exact {
    maxCodeLow := by omega
    maxCodeHigh := by omega
    widthOfMaxCode := by rw [hm, ← grownWidth_widthFor, ← h.widthOfMaxCode, insertEntry_room hf]
    literals := fun c hc => by rw [insertEntry_read_of_le _ (by omega), h.literals c hc]
    reservedClear := by rw [insertEntry_read_of_le _ (by omega), h.reservedClear]
    reservedEnd := by rw [insertEntry_read_of_le _ hlow, h.reservedEnd]
    dynamic := fun c h1 h2 => by
      by_cases hc : c = s.maxCode + 1
      · obtain ⟨j, hj, hread⟩ := h.prevIsEntry p hp
        exact ⟨j, p, b, by omega, by rw [insertEntry_read_of_le _ hj, hread], by rw [hc, hnew]⟩
      · obtain ⟨j, e, b', hj, hread, hext⟩ := h.dynamic c h1 (by omega)
        exact ⟨j, e, b', hj, by rw [insertEntry_read_of_le _ (by omega), hread],
          by rw [insertEntry_read_of_le _ (by omega), hext]⟩
    emptyAbove := fun c hc => by rw [insertEntry_read_other _ _ (by omega), h.emptyAbove c (by omega)]
    prevIsEntry := fun q hq => by
      obtain ⟨c, hc, hread⟩ := h.prevIsEntry q (by simpa using hq)
      exact ⟨c, by omega, by rw [insertEntry_read_of_le _ hc, hread]⟩
    noPrevFresh := by simp [hp] }

/-- R182: at a full table no `DEFER` applies, since its code would not fit its field. -/
theorem maxCode_ne_full_of_defer {i : Instr} {s t : State} (h : exec i s = .next t) (hc : i.cls = .defer) :
    s.maxCode ≠ 4095 := by
  obtain ⟨-, ha, -⟩ := exec_next h
  have hcode : i.code = s.maxCode + 1 := by
    simp only [Instr.applies, hc, rowWhen, decodeCtx, Bool.and_eq_true] at ha
    exact of_decide_eq_true ha.2.2
  have := i.code_le
  omega

/-- R38, R180, R276: every code keeps the dictionary invariant. -/
theorem exec_keeps_dictInv {i : Instr} {s t : State} (hs : DictInv s) (h : exec i s = .next t) : DictInv t := by
  cases exec_effect h with
  | reset => exact dictInv_of_reset rfl rfl rfl rfl
  | stop | fault => exact hs.congr rfl rfl rfl rfl
  | record e _ hl =>
    exact (hs.emit e.toList).setPrev (c := i.code) (by simpa using lookup_some hl)
  | extend p e b _ hp hsrc =>
    have hins := (hs.emit e.toList).insertEntry (by simpa using hp) b
    rcases hsrc with hl | ⟨hc, rfl⟩
    · have hread := lookup_some hl
      refine hins.setPrev (c := i.code) ?_
      rw [insertEntry_read_of_le _ (by simpa using hs.le_maxCode hread), emit_dict, hread]
    · have hroom : (emit (p.snoc b).toList s).maxCode ≠ 4095 := by
        simpa using maxCode_ne_full_of_defer h hc
      refine hins.setPrev (c := (emit (p.snoc b).toList s).maxCode + 1) ?_
      rw [insertEntry_room hroom]
      exact Dictionary.read_write_same _ _ _

/-- Settles O45: START resets, and every code keeps the invariant. -/
theorem stepKeepsDictionaryInvariant : Obligations.StepKeepsDictionaryInvariant := by
  intro s t hs h
  rcases step_cases h with ⟨-, -, rfl⟩ | ⟨-, -, rfl⟩ | ⟨hp, -⟩
  · exact dictInv_of_reset rfl rfl rfl rfl
  · exact hs
  · rcases step_run_next hp h with ⟨-, rfl⟩ | ⟨v, i, -, hx⟩
    · exact hs.congr rfl rfl rfl rfl
    · have hpast : DictInv (pastCode s) := hs.congr rfl rfl rfl rfl
      exact exec_keeps_dictInv hpast hx

/-! ### The cursor invariant -/

/-- The cursor invariant speaks of the input, `LEN`, the cursor and the accumulator alone. -/
theorem CursorInv.congr {s t : State} (h : CursorInv s) (hi : t.input = s.input) (hl : t.len = s.len)
    (hp : t.pos = s.pos) (ha : t.accum = s.accum) : CursorInv t := by
  obtain ⟨h1, h2, h3, h4, h5⟩ := h
  constructor <;> simp only [hl, hp, ha, memRead_congr hi hl] <;> assumption

/-- R21, R22, R40: the cursor at decode start. -/
theorem cursorInv_of_zero {s : State} (hp : s.pos = 0) (ha : s.accum = ⟨0, 0, 0⟩) : CursorInv s := by
  constructor <;> simp [hp, ha]

/-- A stream bit that is there stands in a byte that is there. -/
theorem memRead_of_streamBit {s : State} {i : Nat} {b : Bool} (h : streamBit s i = some b) :
    ∃ x, memRead s (i / 8) = some x := by
  obtain ⟨x, hx, -⟩ := Option.map_eq_some_iff.1 h
  exact ⟨x, hx⟩

/-- R22: the cursor invariant says that the accumulator holds the stream bits from the cursor on. -/
theorem CursorInv.holds {s : State} (h : CursorInv s) : Accum.Holds s s.pos s.accum := by
  obtain ⟨hpos, htied, hcarry, hzero, hpending⟩ := h
  refine ⟨htied, by omega, ?_⟩
  rcases Nat.eq_zero_or_pos s.accum.accCnt with hc | hc
  · rw [hc, hzero hc]; rfl
  · obtain ⟨b, hb, hacc⟩ := hpending hc
    rw [hacc, ← assemble_byte_tail (by omega) hb]
    congr 1
    omega

/-- R22: conversely, an accumulator that holds fewer than 8 stream bits is the view of a cursor. -/
theorem cursorInv_of_holds {s : State} (h : Accum.Holds s s.pos s.accum) (hc : s.accum.accCnt ≤ 7) : CursorInv s := by
  obtain ⟨htied, hin, hbits⟩ := h
  refine ⟨by omega, htied, hc, fun h0 => ?_, fun hpos => ?_⟩
  · rw [h0] at hbits
    simpa [assemble] using hbits.symm
  · obtain ⟨x, hx⟩ := assemble_isSome.1 ⟨_, hbits⟩ 0 hpos
    obtain ⟨b, hb⟩ := memRead_of_streamBit hx
    rw [show (s.pos + 0) / 8 = s.accum.bytePos - 1 by omega] at hb
    refine ⟨b, hb, ?_⟩
    have htail := assemble_byte_tail (n := s.accum.accCnt) (by omega) hb
    rw [show 8 * (s.accum.bytePos - 1) + (8 - s.accum.accCnt) = s.pos by omega, hbits] at htail
    exact Option.some.inj htail

/-- R124: while the bits of the code are there, the top-up loop ends only when it holds enough of them. -/
theorem topUp_enough {s : State} {p W n : Nat} {a : Accum} (h : Accum.Holds s p a)
    (hbits : ∀ j, j < W → ∃ b, streamBit s (p + j) = some b) (hn : W ≤ a.accCnt + 8 * n) :
    W ≤ (topUp s W n a).accCnt := by
  induction n generalizing a with
  | zero => exact hn
  | succ n ih =>
    unfold topUp
    split_ifs with hlt
    · have htied := h.tied
      obtain ⟨x, hx⟩ := hbits a.accCnt hlt
      obtain ⟨b, hb⟩ := memRead_of_streamBit hx
      rw [show (p + a.accCnt) / 8 = a.bytePos by omega] at hb
      have hone : Accum.Holds s p ⟨a.bytePos + 1, a.accCnt + 8, a.acc * 256 + b.toNat⟩ := by
        simpa [topUp, hlt, hb] using topUp_holds (W := W) (n := 1) h
      simp only [hb]
      exact ih hone (by simp only; omega)
    · omega

/-- R124: the top-up loop never holds more than `W + 7` bits. -/
theorem topUp_accCnt_le {s : State} {W n : Nat} {a : Accum} (h : a.accCnt ≤ W + 7) :
    (topUp s W n a).accCnt ≤ W + 7 := by
  induction n generalizing a with
  | zero => exact h
  | succ n ih =>
    unfold topUp
    split_ifs
    · cases memRead s a.bytePos with
      | none => exact h
      | some b => exact ih (by simp only; omega)
    · exact h

/-- R123: taking the first `W` bits out leaves the stream bits from `p + W` on. -/
theorem Accum.Holds.drop {s : State} {p W : Nat} {a : Accum} (h : Accum.Holds s p a) (hW : W ≤ a.accCnt) :
    Accum.Holds s (p + W) ⟨a.bytePos, a.accCnt - W, a.acc % 2 ^ (a.accCnt - W)⟩ := by
  obtain ⟨htied, hin, hbits⟩ := h
  rw [show a.accCnt = W + (a.accCnt - W) by omega] at hbits
  exact ⟨by simp only; omega, hin, assemble_suffix hbits⟩

/-- R125: reading a code keeps the accumulator the view of the cursor. -/
theorem getCode_keeps_cursorInv {W v : Nat} {s t : State} (hs : CursorInv s) (h : getCode W s = .code v t) :
    CursorInv t := by
  obtain ⟨⟨-, hW⟩, -, hv, -, rfl⟩ := getCode_code h
  have hfull : W ≤ (topUp s W 2 s.accum).accCnt :=
    topUp_enough hs.holds (assemble_isSome.1 ⟨v, hv⟩) (by omega)
  have hcarry : (topUp s W 2 s.accum).accCnt ≤ W + 7 := topUp_accCnt_le (by have := hs.carry; omega)
  have hrest : (accumGetCode s W s.accum).2 = ⟨(topUp s W 2 s.accum).bytePos, (topUp s W 2 s.accum).accCnt - W,
      (topUp s W 2 s.accum).acc % 2 ^ ((topUp s W 2 s.accum).accCnt - W)⟩ := by
    simp only [accumGetCode, if_neg (Nat.not_lt.2 hfull)]
  obtain ⟨htied, hin, hbits⟩ := (topUp_holds hs.holds).drop hfull
  rw [hrest]
  exact cursorInv_of_holds ⟨htied, hin, hbits⟩ (by simp only; omega)

/-- Settles O46: START sets the cursor to 0, and a code is carried out where the read has left the cursor. -/
theorem stepKeepsCursorInvariant : Obligations.StepKeepsCursorInvariant := by
  intro s t hs h ht
  rcases step_cases h with ⟨-, -, rfl⟩ | ⟨hp, -, rfl⟩ | ⟨hp, -⟩
  · exact cursorInv_of_zero rfl rfl
  · exact absurd ht hp
  · rcases step_run_next hp h with ⟨-, rfl⟩ | ⟨v, i, hg, hx⟩
    · simp at ht
    · obtain ⟨hi, hl, hpos, ha, -⟩ := exec_keeps_input_and_cursor hx
      exact (getCode_keeps_cursorInv (hs hp) hg).congr hi hl hpos ha

/-! ### The status record -/

/-- R34 to R36: the status record of a run in progress. -/
theorem statusInv_of_run {s : State} (hp : s.phase = .run) :
    StatusInv s ↔ s.outCount = s.out.length ∧ s.trunc = false ∧ s.fcause = .noFault ∧ s.fcode = 0 ∧ s.fpos = 0 := by
  constructor
  · rintro ⟨hcount, htrunc, hcause, hclear⟩
    obtain ⟨hcode, hpos⟩ := hclear (by simp [hp])
    exact ⟨hcount, by simpa [hp] using htrunc, by simpa [hp] using hcause, hcode, hpos⟩
  · rintro ⟨hcount, htrunc, hcause, hcode, hpos⟩
    exact ⟨hcount, by simp [htrunc], by simp [hcause, hp], fun _ => ⟨hcode, hpos⟩⟩

/-- R34 to R36: every way out of a run, and every code that stays in it, keeps the status record's invariant. -/
theorem exec_keeps_statusInv {i : Instr} {s t : State} (hp : s.phase = .run) (hs : StatusInv s)
    (h : exec i s = .next t) : StatusInv t := by
  obtain ⟨hcount, htrunc, hcause, hcode, hpos⟩ := (statusInv_of_run hp).1 hs
  cases exec_effect h with
  | reset => exact (statusInv_of_run (s := resetDictionary s) hp).2 ⟨hcount, htrunc, hcause, hcode, hpos⟩
  | stop => constructor <;> simp [hcount, hcause, hcode, hpos]
  | fault cause hne => constructor <;> simp [hcount, htrunc, hne]
  | record | extend =>
    exact (statusInv_of_run (by simpa using hp)).2 (by simp [hcount, htrunc, hcause, hcode, hpos])

/-- Settles O47: START clears the record, the end of the input sets `trunc` in `DONE`, and every code keeps the invariant. -/
theorem stepKeepsStatusInvariant : Obligations.StepKeepsStatusInvariant := by
  intro s t hs h
  rcases step_cases h with ⟨-, -, rfl⟩ | ⟨-, -, rfl⟩ | ⟨hp, -⟩
  · exact (statusInv_of_run rfl).2 ⟨rfl, rfl, rfl, rfl, rfl⟩
  · exact hs
  · have hrun := (statusInv_of_run hp).1 hs
    rcases step_run_next hp h with ⟨-, rfl⟩ | ⟨v, i, -, hx⟩
    · obtain ⟨hcount, -, hcause, hcode, hpos⟩ := hrun
      constructor <;> simp [hcount, hcause, hcode, hpos]
    · have hpast : StatusInv (pastCode s) := (statusInv_of_run (s := pastCode s) hp).2 hrun
      exact exec_keeps_statusInv (s := pastCode s) hp hpast hx

/-! ### Power-up and the host's registers -/

/-- Settles O44: at power-up every field has its decode-start value, and no input is placed. -/
theorem powerUpMeetsTheInvariants : Obligations.PowerUpMeetsTheInvariants :=
  ⟨rfl, dictInv_of_reset rfl rfl rfl rfl, cursorInv_of_zero rfl rfl,
    ⟨rfl, by decide, by decide, fun _ => ⟨rfl, rfl⟩⟩,
    ⟨List.Pairwise.nil, literalEntries_wf⟩,
    ⟨fun _ hk => absurd hk (Nat.not_lt_zero _), fun _ => rfl⟩⟩

/-- R37: the two low bits of the status word are the phase, and bits 7 to 5 read as 0. -/
theorem statusWord_fields (s : State) :
    (statusWord s).toNat % 4 = s.phase.num.toNat ∧ (statusWord s).toNat / 32 = 0 := by
  rw [statusWord_toNat]
  have htrunc : s.trunc.toNat ≤ 1 := Bool.toNat_le _
  have hphase : s.phase.num.toNat < 4 := s.phase.num.isLt
  have hcause : s.fcause.num.toNat < 4 := s.fcause.num.isLt
  omega

/-- R226: with START issued the host sees phase `RUN`. -/
theorem hostView_phase_of_startReq {s : State} (h : s.startReq = true) : (hostView s).phase = .run := by
  by_cases hp : s.phase = .run
  · rw [hostView_run hp, hp]
  · rw [hostView_started hp h]; rfl

/-- Settles O42: every register is read through `hostView`, which is the state itself but while a START waits. -/
theorem statusRegisterLayout : Obligations.StatusRegisterLayout := by
  intro s
  have hfields := statusWord_fields (hostView s)
  refine ⟨?_, fun n hn => ?_, fun hv => ?_, fun hr => ?_, fun _ hr => ?_⟩
  · simp [hostRead]
  · match n, hn with
    | n + 5, _ => rfl
  · have hself : hostView s = s := hv.elim hostView_run hostView_idle
    rw [hself] at hfields
    exact ⟨_, by simp only [hostRead, hself], hfields⟩
  · rw [hostView_phase_of_startReq hr] at hfields
    exact ⟨_, rfl, hfields⟩
  · simp [hostRead, hostView_idle hr, statusWord_toNat]

end Sys2Proof.Machine
end

section
/-!
PROOFS. The 20_memory family: both stores stay in canonical form, and a step reads no input byte but those its code stands in.
-/

namespace Sys2Proof.Machine

/-! ### The canonical form of the stores -/

/-- R180, R276: the dictionary space stays canonical under every code: a reset and an insertion are its only writers. -/
theorem exec_keeps_dict_wf {i : Instr} {s t : State} (hs : s.dict.wf) (h : exec i s = .next t) : t.dict.wf := by
  cases exec_effect h with
  | reset => exact literalEntries_wf
  | stop | fault => exact hs
  | record => simpa using hs
  | extend => exact insertEntry_wf _ (by simpa using hs)

/-- Settles O48: no step writes the input, START and `CLEAR` leave the literal entries, and an insertion keeps the canonical form. -/
theorem stepKeepsStoresCanonical : Obligations.StepKeepsStoresCanonical := by
  rintro s t ⟨hin, hdict⟩ h
  rcases step_cases h with ⟨-, -, rfl⟩ | ⟨-, -, rfl⟩ | ⟨hp, -⟩
  · exact ⟨hin, literalEntries_wf⟩
  · exact ⟨hin, hdict⟩
  · rcases step_run_next hp h with ⟨-, rfl⟩ | ⟨v, i, -, hx⟩
    · exact ⟨hin, hdict⟩
    · have hkept : t.input = s.input := (exec_keeps_input_and_cursor hx).1
      exact ⟨hkept ▸ hin, exec_keeps_dict_wf (s := pastCode s) hdict hx⟩

/-! ### No code reads the input -/

/-- R8: the state with another input in the buffer. -/
def State.withInput (m : Memory) (s : State) : State := { s with input := m }

@[simp] theorem withInput_input (m : Memory) (s : State) : (s.withInput m).input = m := rfl
@[simp] theorem withInput_len (m : Memory) (s : State) : (s.withInput m).len = s.len := rfl
@[simp] theorem withInput_accum (m : Memory) (s : State) : (s.withInput m).accum = s.accum := rfl
@[simp] theorem withInput_width (m : Memory) (s : State) : (s.withInput m).width = s.width := rfl
@[simp] theorem withInput_maxCode (m : Memory) (s : State) : (s.withInput m).maxCode = s.maxCode := rfl
@[simp] theorem withInput_prev (m : Memory) (s : State) : (s.withInput m).prev = s.prev := rfl
@[simp] theorem withInput_phase (m : Memory) (s : State) : (s.withInput m).phase = s.phase := rfl

/-- R185: a lookup does not read the input. -/
@[simp] theorem lookup_withInput (m : Memory) (s : State) (c : Nat) : lookup (s.withInput m) c = lookup s c := rfl

/-- R93, R96, R97: the class of a code does not depend on the input. -/
@[simp] theorem decodeCtx_withInput (m : Memory) (s : State) : decodeCtx (s.withInput m) = decodeCtx s := rfl

/-- R201: emission does not read the input. -/
@[simp] theorem emit_withInput (bs : List Byte) (m : Memory) (s : State) :
    emit bs (s.withInput m) = (emit bs s).withInput m := by
  rw [emit_eq, emit_eq]; rfl

/-- R180: insertion does not read the input. -/
@[simp] theorem insertEntry_withInput (e : ByteSeq) (m : Memory) (s : State) :
    insertEntry e (s.withInput m) = (insertEntry e s).withInput m := by
  by_cases hf : s.maxCode = 4095
  · rw [insertEntry_full hf, insertEntry_full (by simpa using hf)]
  · rw [insertEntry_room hf, insertEntry_room (by simpa using hf)]; rfl

/-- An outcome with the input of its next state replaced. -/
def outcomeWithInput (m : Memory) : Result → Result
  | .next t => .next (t.withInput m)
  | .fault r => .fault r
  | .refused r => .refused r

/-- R146: `FIRST` does not read the input. -/
theorem doFirst_withInput (c at_ : Nat) (m : Memory) (s : State) :
    doFirst c at_ (s.withInput m) = outcomeWithInput m (doFirst c at_ s) := by
  unfold doFirst
  rw [lookup_withInput]
  cases lookup s c with
  | none => rfl
  | some e => simp only [emit_withInput]; rfl

/-- R171, R172: `LIT` and `REF` do not read the input. -/
theorem doPresent_withInput (c at_ : Nat) (m : Memory) (s : State) :
    doPresent c at_ (s.withInput m) = outcomeWithInput m (doPresent c at_ s) := by
  unfold doPresent
  rw [lookup_withInput, withInput_prev]
  cases s.prev with
  | none => rfl
  | some p =>
    cases lookup s c with
    | none => rfl
    | some e => simp only [emit_withInput, insertEntry_withInput]; rfl

/-- R173: `DEFER` does not read the input. -/
theorem doDeferred_withInput (m : Memory) (s : State) :
    doDeferred (s.withInput m) = outcomeWithInput m (doDeferred s) := by
  unfold doDeferred
  rw [withInput_prev]
  cases s.prev with
  | none => rfl
  | some p => simp only [emit_withInput, insertEntry_withInput]; rfl

/-- R38: no class of codes reads the input. -/
theorem classEffect_withInput (c : CodeClass) (code at_ : Nat) (m : Memory) (s : State) :
    classEffect c code at_ (s.withInput m) = outcomeWithInput m (classEffect c code at_ s) := by
  cases c with
  | clear | endOfInfo | badFirst | bad => rfl
  | first => exact doFirst_withInput code at_ m s
  | lit | ref => exact doPresent_withInput code at_ m s
  | defer => exact doDeferred_withInput m s

/-- R38: once its code has been read, an instruction does not read the input. -/
theorem exec_withInput (i : Instr) (m : Memory) (s : State) :
    exec i (s.withInput m) = outcomeWithInput m (exec i s) := by
  have hstart : codeStart i (s.withInput m) = codeStart i s := rfl
  rw [exec_eq, exec_eq, hstart, classEffect_withInput, inRow, inRow, withInput_phase, decodeCtx_withInput]
  split <;> rfl

/-! ### The bytes a code stands in -/

/-- R102: the input `m` agrees with that of `s` on the bytes in which the code at the cursor stands. -/
def AgreesOnCode (m : Memory) (s : State) : Prop :=
  ∀ k, s.pos / 8 ≤ k → k ≤ (s.pos + s.width - 1) / 8 → m.read k = s.input.read k

section
variable {s : State} {m : Memory} (hm : AgreesOnCode m s)
include hm

/-- R16: the bytes of the code are read alike. -/
theorem AgreesOnCode.memRead_eq {k : Nat} (hlow : s.pos / 8 ≤ k) (hhigh : k ≤ (s.pos + s.width - 1) / 8) :
    memRead (s.withInput m) k = memRead s k := by
  rw [memRead, memRead, hasMore, hasMore, withInput_len, withInput_input, hm k hlow hhigh]

/-- R13: the bits of the code are read alike. -/
theorem AgreesOnCode.streamBit_eq {j : Nat} (hj : j < s.width) :
    streamBit (s.withInput m) (s.pos + j) = streamBit s (s.pos + j) := by
  rw [streamBit, streamBit, hm.memRead_eq (by omega) (by omega)]

/-- R123: the top-up loop asks for bytes of the code alone: while it holds too few bits, the next byte begins before the code ends. -/
theorem AgreesOnCode.topUp_eq (n : Nat) {a : Accum} (htied : 8 * a.bytePos = s.pos + a.accCnt) :
    topUp (s.withInput m) s.width n a = topUp s s.width n a := by
  induction n generalizing a with
  | zero => rfl
  | succ n ih =>
    by_cases hshort : a.accCnt < s.width
    · simp only [topUp, if_pos hshort, hm.memRead_eq (k := a.bytePos) (by omega) (by omega)]
      cases memRead s a.bytePos with
      | none => rfl
      | some b => exact ih (by simp only; omega)
    · simp only [topUp, if_neg hshort]

/-- R123: the accumulator form of `GETCODE` answers alike. -/
theorem AgreesOnCode.accumGetCode_eq (hs : CursorInv s) :
    accumGetCode (s.withInput m) s.width s.accum = accumGetCode s s.width s.accum := by
  rw [accumGetCode, accumGetCode, hm.topUp_eq 2 hs.tied]

/-- R121: the same code is read, and the state after it differs in the input alone. -/
theorem AgreesOnCode.getCode_code (hs : CursorInv s) {v : Nat} {u : State} (h : getCode s.width s = .code v u) :
    getCode s.width (s.withInput m) = .code v (u.withInput m) := by
  obtain ⟨hW, hlen, hv, -, rfl⟩ := Machine.getCode_code h
  have hv' : assemble (streamBit (s.withInput m)) s.pos s.width = some v := by
    rw [assemble_congr fun _ hj => hm.streamBit_eq hj, hv]
  rw [getCode_of_bits (s := s.withInput m) hW hlen hv', withInput_accum, hm.accumGetCode_eq hs]
  rfl

/-- R122: the end of the input is met alike, and the state after it differs in the input alone. -/
theorem AgreesOnCode.getCode_eof (hs : CursorInv s) {u : State} (h : getCode s.width s = .eof u) :
    getCode s.width (s.withInput m) = .eof (u.withInput m) := by
  obtain ⟨hW, hlen, rfl⟩ := Machine.getCode_eof h
  rw [getCode_of_short (s := s.withInput m) hW hlen, withInput_accum, hm.accumGetCode_eq hs]
  rfl

/-- R68, R102: a code step that answers a next state answers the same from the input `m`, but for the input. -/
theorem AgreesOnCode.codeStep_next (hs : CursorInv s) {t : State} (h : codeStep s = .next t) :
    codeStep (s.withInput m) = .next (t.withInput m) := by
  unfold codeStep
  rw [withInput_width, decodeCtx_withInput]
  rcases codeStep_cases h with ⟨u, hg, rfl⟩ | ⟨v, u, i, hg, hd, hx⟩
  · rw [hm.getCode_eof hs hg]
    rfl
  · simp only [hm.getCode_code hs hg, hd, exec_withInput, hx, outcomeWithInput]

end

/-- Settles O53: a step of a run is a code step, which reads the same code from both inputs and then leaves the input alone. -/
theorem stepReadsOnlyItsCode : Obligations.StepReadsOnlyItsCode := by
  intro s t m hp hs hm h
  have hr : s.startReq = false := (step_run_cases hp h).1
  have hagree : AgreesOnCode m s := hm
  rw [step_run hp hr] at h
  exact (step_run (s := s.withInput m) hp hr).trans (hagree.codeStep_next hs h)

end Sys2Proof.Machine
end

section
/-!
PROOFS. The 30_encoding family: decoding and encoding are inverse to each other, a step carries out the class its code has, and the
code read is the one the byte formula gives.
-/

namespace Sys2Proof

open Sys2Proof.Machine

/-! ### What a row covers, and the class of a value -/

/-- R95, R104: the values that the `encoding` column leaves to a class. -/
def CodeClass.Covers : CodeClass → Nat → Prop
  | .clear, v => v = 256
  | .endOfInfo, v => v = 257
  | .first, v => v < 256
  | .lit, v => v < 256
  | .badFirst, v => 258 ≤ v
  | .ref, v => 258 ≤ v
  | .defer, v => 258 ≤ v
  | .bad, v => 258 ≤ v

/-- R104: an instruction is well formed exactly when its class covers its code. -/
theorem Instr.wf_iff (i : Instr) : i.wf = true ↔ i.cls.Covers i.code := by
  cases i <;> simp [Instr.wf, Instr.cls, Instr.code, CodeClass.Covers] <;> exact BitVec.isLt _

/-- R91: a code fits the field of its format. -/
theorem Instr.code_lt (i : Instr) : i.code < 2 ^ i.width := by
  cases i <;> simp only [Instr.code, Instr.width, Instr.format, Format.bits, Config.clearCode, Config.endCode] <;> omega

/-- R96, R97: the class a value is given covers it. -/
theorem classOf_covers (ctx : DecodeCtx) (v : Nat) : (classOf ctx v).Covers v := by
  unfold classOf
  split_ifs <;> simp_all only [CodeClass.Covers, Config.endCode, Config.clearCode, Config.nLiteral] <;> omega

/-- R96: with a previous sequence held the decoder classifies as the table of HASPREV says. -/
theorem heldClass_classOf {ctx : DecodeCtx} (h : ctx.held = true) (v : Nat) : HeldClass ctx.maxCode v (classOf ctx v) := by
  unfold HeldClass classOf
  split_ifs <;> simp_all <;> omega

/-- R97: with none held the decoder classifies as the table of NOPREV says. -/
theorem freshClass_classOf {ctx : DecodeCtx} (h : ctx.held = false) (v : Nat) : FreshClass v (classOf ctx v) := by
  unfold FreshClass classOf
  split_ifs <;> simp_all <;> omega

/-- R96, R97, R142: the class that covers a value and whose condition holds is the one the first-match table gives. -/
theorem classOf_eq_of_rowWhen {ctx : DecodeCtx} {v : Nat} {c : CodeClass} (hc : c.Covers v) (hw : rowWhen ctx v c = true) :
    classOf ctx v = c := by
  cases hheld : ctx.held with
  | true =>
    obtain ⟨hend, hclear, hlit, href, hdefer, hbad⟩ := heldClass_classOf hheld v
    cases c <;> simp [rowWhen, hheld] at hw
    case clear => exact hclear hc
    case endOfInfo => exact hend hc
    case lit => exact hlit (Nat.le_of_lt_succ hc)
    case ref => exact href hc hw.2
    case defer => exact hdefer hc hw.2
    case bad => exact hbad hc hw.2
  | false =>
    obtain ⟨hend, hclear, hfirst, hbadFirst⟩ := freshClass_classOf hheld v
    cases c <;> simp [rowWhen, hheld] at hw
    case clear => exact hclear hc
    case endOfInfo => exact hend hc
    case first => exact hfirst (Nat.le_of_lt_succ hc)
    case badFirst => exact hbadFirst hc

/-- R104: an instruction is the row of its own format and class, with its code as the operand. -/
theorem rowOf_self (i : Instr) : rowOf i.format i.cls i.code = .ok i := by
  cases i <;> simp [rowOf, Instr.format, Instr.cls, Instr.code]

/-! ### Decoding is the inverse of encoding -/

/-- R93, R104: a row applies at its own width, under its own condition. -/
theorem Instr.applies_iff {i : Instr} {ctx : DecodeCtx} :
    i.applies ctx = true ↔ ctx.width = i.width ∧ rowWhen ctx i.code i.cls = true := by
  simp [Instr.applies]

/-- R96, R97, R104: a code value decodes to the one well-formed instruction that stands for it and applies. -/
theorem decode_eq_ok_iff {ctx : DecodeCtx} {v : Nat} {i : Instr} (hv : v < 2 ^ ctx.width) :
    decode ctx v = .ok i ↔ i.code = v ∧ i.wf = true ∧ i.applies ctx = true := by
  constructor
  · intro h
    obtain ⟨-, rfl, hcls⟩ := decode_spec h hv
    exact ⟨rfl, i.wf_iff.2 (hcls ▸ classOf_covers ctx i.code), decode_applies h hv⟩
  · rintro ⟨rfl, hwf, ha⟩
    obtain ⟨hwidth, hwhen⟩ := Instr.applies_iff.1 ha
    have hformat : Format.ofWidth ctx.width = some i.format := Format.ofWidth_eq_some.2 hwidth.symm
    have hclass : classOf ctx i.code = i.cls := classOf_eq_of_rowWhen (i.wf_iff.1 hwf) hwhen
    simp only [decode, hformat, hclass, rowOf_self]

/-- R92: bytes decode as the code value that their leading bits make. -/
theorem decodeBytes_eq_ok_iff {ctx : DecodeCtx} {bs : List Byte} {i : Instr} :
    decodeBytes ctx bs = .ok i ↔ ∃ v, assemble (listBit bs) 0 ctx.width = some v ∧ decode ctx v = .ok i := by
  unfold decodeBytes
  cases hf : Format.ofWidth ctx.width with
  | none => simp [decode, hf]
  | some f =>
    rw [← Format.ofWidth_eq_some.1 hf]
    cases hread : assemble (listBit bs) 0 f.bits <;> simp [hread]

/-- Settles O2: the laid-out code is read back, and the instruction is the one that stands for it and applies. -/
theorem decodeOfEncodeIsIdentity : Obligations.DecodeOfEncodeIsIdentity := by
  intro ctx i hwf ha
  have hwidth : ctx.width = i.width := (Instr.applies_iff.1 ha).1
  refine decodeBytes_eq_ok_iff.2 ⟨i.code, ?_, (decode_eq_ok_iff (hwidth ▸ i.code_lt)).2 ⟨rfl, hwf, ha⟩⟩
  rw [hwidth]
  exact assemble_layout i.code_lt

/-- Settles O3: the leading bits make a code value, and what decodes from it is well formed, stands for it and applies. -/
theorem decodedInstructionIsTheCodeRead : Obligations.DecodedInstructionIsTheCodeRead := by
  intro ctx bs i h
  obtain ⟨v, hread, hdec⟩ := decodeBytes_eq_ok_iff.1 h
  obtain ⟨rfl, hwf, ha⟩ := (decode_eq_ok_iff (assemble_lt hread)).1 hdec
  have hwidth : ctx.width = i.width := (Instr.applies_iff.1 ha).1
  exact ⟨hwf, hwidth.symm, hwidth ▸ hread, ha⟩

/-- Settles O1: eight closed words, each decoded by evaluation. -/
theorem tableEncodingsDecode : Obligations.TableEncodingsDecode := by
  refine ⟨?clear, ?endOfInfo, ?first, ?badFirst, ?lit, ?ref, ?defer, ?bad⟩ <;> decide

end Sys2Proof

namespace Sys2Proof.Machine

/-! ### The class a step carries out -/

/-- R149: at `EOF` a step of a run carries out the end-of-input rule. -/
theorem step_of_eof {s t : State} (hp : s.phase = .run) (hr : s.startReq = false) (hg : getCode s.width s = .eof t) :
    step s = execEof t := by
  rw [step_run hp hr]; simp only [codeStep, hg]

/-- R140: a step of a run carries out the instruction that the code it reads decodes to. -/
theorem step_of_code {s t : State} {v : Nat} {i : Instr} (hp : s.phase = .run) (hr : s.startReq = false)
    (hg : getCode s.width s = .code v t) (hd : decode (decodeCtx s) v = .ok i) : step s = exec i t := by
  rw [step_run hp hr]; simp only [codeStep, hg, hd]

/-- R103, R140: where every class has its row, a step carries out an instruction of the class that the table gives for the code read. -/
theorem step_carries_out_class {s t : State} {v : Nat} (hp : s.phase = .run) (hr : s.startReq = false)
    (hn : s.prev = none → s.width = 9) (hg : getCode s.width s = .code v t) :
    ∃ i, i.code = v ∧ i.width = s.width ∧ i.cls = classOf (decodeCtx s) v ∧ step s = exec i t := by
  obtain ⟨hW, -, -, hv, -⟩ := getCode_code hg
  obtain ⟨i, hd⟩ := decode_total (ctx := decodeCtx s) v hW fun h => hn (by simpa [decodeCtx] using h)
  obtain ⟨hwidth, hcode, hcls⟩ := decode_spec hd hv
  exact ⟨i, hcode, hwidth, hcls, step_of_code hp hr hg hd⟩

/-- Settles O4: a step carries out the class of the code it reads, which HASPREV's table gives. -/
theorem heldCodesAreClassified : Obligations.HeldCodesAreClassified := by
  intro s hp hr hprev _
  refine ⟨fun t hg => step_of_eof hp hr hg, fun v t hg => ?_⟩
  obtain ⟨i, hcode, hwidth, hcls, hstep⟩ := step_carries_out_class hp hr (fun h => absurd h hprev) hg
  have hheld : (decodeCtx s).held = true := Option.isSome_iff_ne_none.2 hprev
  exact ⟨i, hcode, hwidth, hcls ▸ heldClass_classOf hheld v, hstep⟩

/-- Settles O5: a step carries out the class of the code it reads, which NOPREV's table gives. -/
theorem firstCodesAreClassified : Obligations.FirstCodesAreClassified := by
  intro s hp hr hprev hw
  refine ⟨fun t hg => step_of_eof hp hr hg, fun v t hg => ?_⟩
  obtain ⟨i, hcode, hwidth, hcls, hstep⟩ := step_carries_out_class hp hr (fun _ => hw) hg
  have hfresh : (decodeCtx s).held = false := by simp [decodeCtx, hprev]
  exact ⟨i, hcode, hwidth.trans hw, hcls ▸ freshClass_classOf hfresh v, hstep⟩

/-! ### The all-ones value and the full table -/

/-- R31, R98: below 12 bits the table is at least two codes short of the all-ones value. -/
theorem succ_lt_allOnes {m : Nat} (h : m ≤ 2045) : m + 1 < 2 ^ widthFor m - 1 := by
  unfold widthFor; split_ifs <;> omega

/-- R31: every width of a run is 9 to 12. -/
theorem widthFor_range (m : Nat) : 9 ≤ widthFor m ∧ widthFor m ≤ 12 := by
  unfold widthFor; split_ifs <;> omega

/-- R96: a code that is not above `maxCode` is neither `DEFER` nor `BAD`. -/
theorem classOf_of_le_maxCode {ctx : DecodeCtx} {v : Nat} (h : v ≤ ctx.maxCode) :
    classOf ctx v ≠ .defer ∧ classOf ctx v ≠ .bad := by
  unfold classOf
  split_ifs <;> simp

/-- R96: with a previous sequence held every value of the field decodes, to an instruction of the class the table gives. -/
theorem decode_held {W m v : Nat} (hW : 9 ≤ W ∧ W ≤ 12) (hv : v < 2 ^ W) :
    ∃ i, decode ⟨W, m, true⟩ v = .ok i ∧ i.cls = classOf ⟨W, m, true⟩ v := by
  obtain ⟨i, hd⟩ := decode_total (ctx := ⟨W, m, true⟩) v hW (by simp)
  exact ⟨i, hd, (decode_spec hd hv).2.2⟩

/-- Settles O6: the all-ones value lies above `maxCode + 1` up to 2045, and no value lies above `maxCode` at 4095. -/
theorem allOnesIsBadAndFullTableHasNoBad : Obligations.AllOnesIsBadAndFullTableHasNoBad := by
  constructor
  · intro m hlow hhigh
    have hlt := succ_lt_allOnes hhigh
    obtain ⟨i, hd, hcls⟩ := decode_held (m := m) (widthFor_range m) (Nat.sub_one_lt (Nat.two_pow_pos (widthFor m)).ne')
    obtain ⟨-, -, -, -, -, hbad⟩ := heldClass_classOf (ctx := ⟨widthFor m, m, true⟩) rfl (2 ^ widthFor m - 1)
    exact ⟨i, hd, hcls.trans (hbad (by omega) hlt)⟩
  · intro v hv
    obtain ⟨i, hd, hcls⟩ := decode_held (W := 12) (m := 4095) (by decide) hv
    exact ⟨i, hd, hcls ▸ classOf_of_le_maxCode (Nat.le_of_lt_succ hv)⟩

/-! ### The byte formula -/

/-- R92: the bits of a code up to bit `m` are the more significant part of its value. -/
theorem assemble_prefix {bit : Nat → Option Bool} {p m n v : Nat} (h : assemble bit p (m + n) = some v) :
    assemble bit p m = some (v / 2 ^ n) := by
  obtain ⟨u, hu⟩ := assemble_isSome.2 fun j (hj : j < m) => assemble_isSome.1 ⟨v, h⟩ j (by omega)
  have hsuffix := assemble_suffix h
  have hsum : u * 2 ^ n + v % 2 ^ n = v := by simpa [h] using (assemble_append hu hsuffix).symm
  have hdiv : v / 2 ^ n = u := (Nat.div_eq_iff (Nat.two_pow_pos n)).2 (by have := assemble_lt hsuffix; omega)
  rw [hu, hdiv]

/-- R92: the `W` bits that begin `r` bits into a value of `N` bits. -/
theorem assemble_slice {bit : Nat → Option Bool} {p N r W V : Nat} (h : assemble bit p N = some V) (hN : r + W ≤ N) :
    assemble bit (p + r) W = some (V / 2 ^ (N - r - W) % 2 ^ W) := by
  obtain ⟨n, rfl⟩ := Nat.exists_eq_add_of_le hN
  rw [Nat.add_assoc] at h
  rw [assemble_prefix (assemble_suffix h), show r + W + n - r - W = n by omega, Nat.pow_add, Nat.mul_comm,
    Nat.mod_mul_right_div_self]

/-- R92: the byte at a position, a byte beyond the buffer taken as 0. -/
def paddedByte (s : State) (k : Nat) : Byte := (memRead s k).getD 0

/-- R92: stream bit `i`, a byte beyond the buffer taken as 0. -/
def paddedBit (s : State) (i : Nat) : Option Bool := some (byteBit (paddedByte s (i / 8)) (i % 8))

/-- A stream bit of the buffer is its bit in the padded stream. -/
theorem streamBit_eq_paddedBit {s : State} (hs : HostDuty s) {i : Nat} (h : i < 8 * s.len) : streamBit s i = paddedBit s i := by
  have hk : i / 8 < s.len := by omega
  obtain ⟨b, hb⟩ := Option.ne_none_iff_exists'.1 (hs.inputPresent _ hk)
  have hm : memRead s (i / 8) = some b := memRead_eq_some.2 ⟨hk, hb⟩
  rw [streamBit_some hm, paddedBit, paddedByte, hm, Option.getD_some]

/-- The eight bits of one byte of the padded stream are the byte. -/
theorem assemble_paddedByte (s : State) (k : Nat) : assemble (paddedBit s) (8 * k) 8 = some (paddedByte s k).toNat := by
  have hbyte := byte_tail_bits (paddedByte s k) 8 le_rfl
  rw [Nat.mod_eq_of_lt (paddedByte s k).isLt] at hbyte
  rw [← hbyte]
  refine assemble_congr fun j hj => ?_
  rw [paddedBit, show (8 * k + j) / 8 = k by omega, show (8 * k + j) % 8 = 8 - 8 + j by omega]

/-- R92: the 24 bits of three bytes of the padded stream are `V`. -/
theorem assemble_threeBytes (s : State) (k : Nat) :
    assemble (paddedBit s) (8 * k) 24 = some
      ((paddedByte s k).toNat * 2 ^ 16 + (paddedByte s (k + 1)).toNat * 2 ^ 8 + (paddedByte s (k + 2)).toNat) := by
  have htwo := assemble_append (assemble_paddedByte s k) (assemble_paddedByte s (k + 1))
  have hthree := assemble_append htwo (assemble_paddedByte s (k + 2))
  exact hthree.trans (congrArg some (by ring))

/-- Settles O11: the bits read are a slice of the three bytes at the cursor. -/
theorem getCodeByteFormula : Obligations.GetCodeByteFormula := by
  intro W s hlow hhigh hl hs
  have hslice := assemble_slice (r := s.pos % 8) (W := W) (assemble_threeBytes s (s.pos / 8)) (by omega)
  rw [Nat.div_add_mod] at hslice
  have hread : assemble (streamBit s) s.pos W = assemble (paddedBit s) s.pos W :=
    assemble_congr fun j hj => streamBit_eq_paddedBit hs (by omega)
  exact ⟨_, getCode_of_bits ⟨hlow, hhigh⟩ hl (hread.trans hslice)⟩

/-! ### A placed table word -/

/-- notes/assumptions/17.md: a table word fits the field of the format it is given. -/
theorem tableFormat_lt {nbits w : Nat} {f : Format} (h : tableFormat nbits w = some f) : w < 2 ^ f.bits := by
  unfold tableFormat at h
  split at h <;> split_ifs at h <;> cases h <;> simpa [Format.bits]

/-- notes/assumptions/17.md: a table word is read at the width of its format. -/
theorem tableCtx_width (f : Format) : (tableCtx f).width = f.bits := by cases f <;> rfl

/-- notes/assumptions/17.md: what a table word decodes to, in the decoder state its format names. -/
theorem decodeTableWord_eq_some {nbits w : Nat} {i : Instr} (h : decodeTableWord nbits w = some i) :
    ∃ f, tableFormat nbits w = some f ∧ w < 2 ^ f.bits ∧ decode (tableCtx f) w = .ok i := by
  unfold decodeTableWord at h
  cases hf : tableFormat nbits w with
  | none => simp [hf] at h
  | some f =>
    have hw := tableFormat_lt hf
    have hd : decodeBytes (tableCtx f) (layout f.bits w) = .ok i := by
      simp only [hf] at h
      split at h
      next j hj => cases h; exact hj
      next => cases h
    obtain ⟨v, hv, hdec⟩ := decodeBytes_eq_ok_iff.1 hd
    rw [tableCtx_width, assemble_layout hw] at hv
    cases hv
    exact ⟨f, rfl, hw, hdec⟩

/-- notes/assumptions/17.md: the state a table word is placed in is a run at stream bit 0, in the decoder state its format names. -/
theorem bootFor_run (f : Format) (s : State) :
    (bootFor f s).phase = .run ∧ (bootFor f s).startReq = false ∧ (bootFor f s).pos = 0 ∧
      decodeCtx (bootFor f s) = tableCtx f := by
  cases f <;> exact ⟨rfl, rfl, rfl, rfl⟩

/-- R92, R140: a code placed at the cursor of a run is what the next step carries out, just past it. -/
theorem step_storeCode {s : State} {w : Nat} {i : Instr} (hp : s.phase = .run) (hr : s.startReq = false)
    (hW : 9 ≤ s.width ∧ s.width ≤ 12) (hw : w < 2 ^ s.width) (hd : decode (decodeCtx s) w = .ok i) :
    ∃ t, step (storeCode s.width w s) = exec i t ∧ t.phase = .run ∧ t.pos = s.pos + s.width ∧
      decodeCtx t = decodeCtx s := by
  obtain ⟨a, hg⟩ := storeCode_getCode (s := s) hW hw
  exact ⟨_, step_of_code (s := storeCode s.width w s) hp hr hg hd, hp, rfl, rfl⟩

/-- notes/assumptions/17.md: at power-up `withFetchWord` places the word at the front of a run just started. -/
theorem reset_withFetchWord {nbits w : Nat} {f : Format} (h : tableFormat nbits w = some f) :
    State.reset.withFetchWord nbits w = storeCode f.bits w (bootFor f State.reset) := by
  simp only [State.withFetchWord, placeTableWord, h, State.reset]

/-- Settles O54: the run begins in the decoder state the word was decoded in, and the next step reads the placed word. -/
theorem fetchWordIsRunNext : Obligations.FetchWordIsRunNext := by
  intro nbits w i h
  obtain ⟨f, hf, hw, hd⟩ := decodeTableWord_eq_some h
  obtain ⟨hp, hr, hpos, hctx⟩ := bootFor_run f State.reset
  have hwidth : (bootFor f State.reset).width = f.bits := (congrArg DecodeCtx.width hctx).trans (tableCtx_width f)
  obtain ⟨t, hstep, htp, htpos, htctx⟩ :=
    step_storeCode hp hr (hwidth ▸ f.bits_range) (hwidth ▸ hw) (hctx ▸ hd)
  have ha : i.applies (decodeCtx t) = true := by
    rw [htctx, hctx]
    exact decode_applies hd (tableCtx_width f ▸ hw)
  refine ⟨t, ?_, htp, ?_, ha⟩
  · rw [reset_withFetchWord hf, ← hwidth, hstep]
  · rw [htpos, hpos, Nat.zero_add, ← (Instr.applies_iff.1 ha).1, htctx]
    rfl

end Sys2Proof.Machine
end

section
/-!
PROOFS. The 40_bit_extractor family: both forms of `GETCODE` read the same code, the accumulator stays small, and the cursor only moves
forward.
-/

namespace Sys2Proof

/-- R92: a code is the sum of its bits, the first one the most significant. -/
theorem assemble_eq_sum {bit : Nat → Option Bool} {value : Nat → Nat} {p n : Nat}
    (h : ∀ j, j < n → ∃ b, bit (p + j) = some b ∧ b.toNat = value (p + j)) :
    assemble bit p n = some (∑ j ∈ Finset.range n, value (p + j) * 2 ^ (n - 1 - j)) := by
  induction n with
  | zero => rfl
  | succ n ih =>
    obtain ⟨b, hb, hvalue⟩ := h n (Nat.lt_succ_self n)
    have hdouble : 2 * ∑ j ∈ Finset.range n, value (p + j) * 2 ^ (n - 1 - j) =
        ∑ j ∈ Finset.range n, value (p + j) * 2 ^ (n - j) := by
      rw [Finset.mul_sum]
      refine Finset.sum_congr rfl fun j hj => ?_
      have hlt : j < n := Finset.mem_range.1 hj
      rw [show n - j = n - 1 - j + 1 by omega, Nat.pow_succ]
      ring
    rw [assemble_succ, ih fun j hj => h j (by omega), hb, Finset.sum_range_succ]
    simp only [hdouble, hvalue, Nat.add_sub_cancel, Nat.sub_self, Nat.pow_zero, Nat.mul_one]

/-- R13: bit `j` of a byte as a number. -/
theorem byteBit_toNat (b : Byte) (j : Nat) : (byteBit b j).toNat = b.toNat / 2 ^ (7 - j) % 2 :=
  Nat.toNat_testBit _ _

end Sys2Proof

namespace Sys2Proof.Machine

/-! ### The cursor form -/

/-- R13, R223 (b): every stream bit below `8 LEN` is there, with the value that its byte gives it. -/
theorem streamBit_of_hostDuty {s : State} (hs : HostDuty s) {i : Nat} (h : i < 8 * s.len) :
    ∃ b, streamBit s i = some b ∧ b.toNat = streamBitValue s i := by
  have hk : i / 8 < s.len := by omega
  obtain ⟨x, hx⟩ := Option.ne_none_iff_exists'.1 (hs.inputPresent _ hk)
  exact ⟨_, streamBit_some (memRead_eq_some.2 ⟨hk, hx⟩), by simp only [streamBitValue, hx, byteBit_toNat]⟩

/-- Settles O8: the code assembled at the cursor is the sum of its bits. -/
theorem getCodeReadsMsbFirst : Obligations.GetCodeReadsMsbFirst := by
  intro W s hlow hhigh hl hs
  have hsum := assemble_eq_sum (p := s.pos) (n := W) fun j hj => streamBit_of_hostDuty hs (by omega)
  exact ⟨_, getCode_of_bits ⟨hlow, hhigh⟩ hl hsum⟩

/-- Settles O9: with too few bits left only the accumulator moves. -/
theorem getCodeShortInputIsEof : Obligations.GetCodeShortInputIsEof := by
  intro W s hlow hhigh hl
  exact ⟨_, getCode_of_short ⟨hlow, hhigh⟩ hl⟩

/-- R127: `GETCODE` refuses every width outside 9 to 12. -/
theorem getCode_of_widthOutOfRange {W : Nat} (s : State) (hW : ¬(9 ≤ W ∧ W ≤ 12)) : getCode W s = .widthOutOfRange :=
  if_neg hW

/-- Settles O10: `GETCODE` refuses the width, and the code step passes the refusal on. -/
theorem getCodeRefusesOtherWidths : Obligations.GetCodeRefusesOtherWidths := by
  intro W s hW
  have hg := getCode_of_widthOutOfRange s hW
  refine ⟨hg, fun hp hr hw => ?_⟩
  subst hw
  rw [step_run hp hr]
  simp only [codeStep, hg]

/-! ### The accumulator form -/

/-- R123: once `W` bits are held the accumulator form answers the first `W` of them and keeps the rest. -/
theorem accumGetCode_of_enough {s : State} {W : Nat} {a : Accum} (h : W ≤ (topUp s W 2 a).accCnt) :
    accumGetCode s W a =
      (some ((topUp s W 2 a).acc / 2 ^ ((topUp s W 2 a).accCnt - W)),
        ⟨(topUp s W 2 a).bytePos, (topUp s W 2 a).accCnt - W,
          (topUp s W 2 a).acc % 2 ^ ((topUp s W 2 a).accCnt - W)⟩) := by
  simp only [accumGetCode, if_neg (Nat.not_lt.2 h)]

/-- R123: when the buffer is exhausted before `W` bits are held the accumulator form answers `EOF` and keeps the bits it holds. -/
theorem accumGetCode_of_short {s : State} {W : Nat} {a : Accum} (h : (topUp s W 2 a).accCnt < W) :
    accumGetCode s W a = (none, topUp s W 2 a) := by
  simp only [accumGetCode, if_pos h]

/-- R124: where the bits of the code are there, two top-ups reach `W` bits and never hold more than `W + 7`. -/
theorem CursorInv.topUp_bounds {s : State} {W : Nat} (hs : CursorInv s) (hW : W ≤ 12)
    (hbits : ∀ j, j < W → ∃ b, streamBit s (s.pos + j) = some b) :
    W ≤ (topUp s W 2 s.accum).accCnt ∧ (topUp s W 2 s.accum).accCnt ≤ W + 7 := by
  have hcarry := hs.carry
  exact ⟨topUp_enough hs.holds hbits (by omega), topUp_accCnt_le (by omega)⟩

/-- R122, R124: where fewer than `W` bits are left, the top-up loop exhausts the buffer before it holds `W` bits. -/
theorem CursorInv.topUp_short {s : State} {W : Nat} (hs : CursorInv s) (hl : 8 * s.len < s.pos + W) :
    (topUp s W 2 s.accum).accCnt < W := by
  obtain ⟨htied, hin, -⟩ : Accum.Holds s s.pos (topUp s W 2 s.accum) := topUp_holds hs.holds
  omega

/-- R125: the accumulator form answers the code that the stream holds at the cursor. -/
theorem accumGetCode_of_bits {s : State} {W v : Nat} (hs : CursorInv s) (hW : W ≤ 12)
    (hv : assemble (streamBit s) s.pos W = some v) : (accumGetCode s W s.accum).1 = some v := by
  obtain ⟨hfull, -⟩ := hs.topUp_bounds hW (assemble_isSome.1 ⟨v, hv⟩)
  have hheld := (topUp_holds (W := W) (n := 2) hs.holds).bits
  rw [← Nat.add_sub_cancel' hfull] at hheld
  rw [accumGetCode_of_enough hfull, ← hv, assemble_prefix hheld]

/-- Settles O12: the accumulator holds the stream bits from the cursor on, at least `W` of them exactly when the code is there. -/
theorem accumulatorFormAgreesWithCursorForm : Obligations.AccumulatorFormAgreesWithCursorForm := by
  intro W s hs _ hW
  constructor
  · intro v t hg
    have hcursor := getCode_keeps_cursorInv hs hg
    obtain ⟨-, -, hv, -, rfl⟩ := getCode_code hg
    exact ⟨accumGetCode_of_bits hs hW hv, rfl, hcursor⟩
  · intro t hg
    obtain ⟨-, hl, rfl⟩ := getCode_eof hg
    have hshort := accumGetCode_of_short (hs.topUp_short hl)
    have htied := (topUp_holds (W := W) (n := 2) hs.holds).tied
    exact ⟨by rw [hshort], rfl, by rw [hshort]; exact htied⟩

/-- Settles O13: the counts are bounded by `topUp_bounds`, whole bytes by the tie to the cursor, and a held number by its count. -/
theorem accumulatorStaysSmall : Obligations.AccumulatorStaysSmall := by
  intro W s hs hduty hlow hhigh hl a
  obtain ⟨hfull, hcount⟩ : W ≤ a.accCnt ∧ a.accCnt ≤ W + 7 := hs.topUp_bounds hhigh fun j hj =>
    (streamBit_of_hostDuty hduty (by omega)).imp fun _ hb => hb.1
  obtain ⟨htied, -, hbits⟩ : Accum.Holds s s.pos a := topUp_holds hs.holds
  have hbytes : a.bytePos = s.accum.bytePos + 1 ∨ a.bytePos = s.accum.bytePos + 2 := by
    have htied₀ := hs.tied
    have hcarry := hs.carry
    omega
  have hacc : a.acc < 2 ^ 19 := calc
    a.acc < 2 ^ a.accCnt := assemble_lt hbits
    _ ≤ 2 ^ 19 := Nat.pow_le_pow_right (by decide) (by omega)
  refine ⟨hbytes, hfull, hcount, hacc, ?_⟩
  rw [accumGetCode_of_enough hfull]
  exact Nat.sub_le_iff_le_add'.2 hcount

/-! ### The cursor in a run -/

/-- Settles O33: the end of the input leaves the cursor, and a code is carried out, and keeps the cursor, just past its bits. -/
theorem cursorOnlyMovesForward : Obligations.CursorOnlyMovesForward := by
  intro s t hp h
  rcases step_run_next hp h with ⟨-, rfl⟩ | ⟨v, i, hg, hx⟩
  · exact .inr ⟨rfl, rfl, rfl⟩
  · obtain ⟨⟨hlow, hhigh⟩, hl, -⟩ := getCode_code hg
    obtain ⟨-, -, hkept, -⟩ := exec_keeps_input_and_cursor hx
    have hpos : t.pos = s.pos + s.width := hkept
    exact .inl ⟨hpos, hpos ▸ hl, hlow, hhigh⟩

end Sys2Proof.Machine
end

section
/-!
PROOFS. The 41_sequencer family: the control codes and the first code after a reset, what a step does with the code it reads, and that
every run ends.
-/

namespace Sys2Proof.Machine

/-! ### The control codes and the first code after a reset -/

/-- R143: `CLEAR`, read at the width in force, is the reset. -/
theorem exec_clear (i : Instr) {s : State} (hp : s.phase = .run) (hc : i.cls = .clear) (hw : s.width = i.width) :
    exec i s = .next (resetDictionary s) := by
  have ha : i.applies (decodeCtx s) = true := Instr.applies_iff.2 ⟨hw, by rw [hc]; rfl⟩
  rw [exec_of_applies hp ha, hc]; rfl

/-- R143, R276: the reset that `CLEAR` carries out, by reads. -/
theorem resetsBy_of_clear (i : Instr) {s : State} (hp : s.phase = .run) (hc : i.cls = .clear) (hw : s.width = i.width) :
    ResetsBy i s := by
  refine ⟨resetDictionary s, exec_clear i hp hc hw, rfl, fun c hlt => ?_, fun c hge => ?_⟩
  · rw [resetDictionary_dict, literalEntries_read, if_pos hlt]
  · rw [resetDictionary_dict, literalEntries_read, if_neg (Nat.not_lt.2 hge)]

/-- Settles O14: each of the four rows is of class `CLEAR`. -/
theorem clearResets : Obligations.ClearResets := fun _ hp =>
  ⟨resetsBy_of_clear .clearC9 hp rfl, resetsBy_of_clear .clearC10 hp rfl, resetsBy_of_clear .clearC11 hp rfl,
    resetsBy_of_clear .clearC12 hp rfl⟩

/-- R145: a second reset changes nothing. -/
theorem resetDictionary_idem (s : State) : resetDictionary (resetDictionary s) = resetDictionary s := rfl

/-- Settles O25: a `CLEAR` leaves the width at 9 and the run in progress, and the reset is idempotent. -/
theorem repeatedClearChangesNothing : Obligations.RepeatedClearChangesNothing := by
  intro i s t hc h
  obtain ⟨hp, ha, -⟩ := exec_next h
  have hreset := exec_clear i hp hc (Instr.applies_iff.1 ha).1
  obtain rfl : resetDictionary s = t := by simpa [hreset] using h
  have hagain := exec_clear .clearC9 (s := resetDictionary s) hp rfl rfl
  rw [resetDictionary_idem] at hagain
  exact ⟨rfl, hagain⟩

/-- Settles O7: right after a reset 258 is `maxCode + 1`, which only HASPREV reads as `DEFER`. -/
theorem asymmetryAfterReset : Obligations.AsymmetryAfterReset := by
  intro s hw hm
  constructor
  · intro hprev
    have hctx : decodeCtx s = ⟨9, 257, false⟩ := by simp [decodeCtx, hw, hm, hprev]
    rw [hctx]; rfl
  · intro hprev
    have hctx : decodeCtx s = ⟨9, 257, true⟩ := by
      simp [decodeCtx, hw, hm, Option.isSome_iff_ne_none, hprev]
    rw [hctx]; rfl

/-- R148: `END`, read at the width in force, stops the run with `trunc = 0`. -/
theorem exec_end (i : Instr) {s : State} (hp : s.phase = .run) (hc : i.cls = .endOfInfo) (hw : s.width = i.width) :
    exec i s = .next (stop false s) := by
  have ha : i.applies (decodeCtx s) = true := Instr.applies_iff.2 ⟨hw, by rw [hc]; rfl⟩
  rw [exec_of_applies hp ha, hc]; rfl

/-- Settles O15: each of the four rows is of class `END`. -/
theorem endStopsWithoutTruncation : Obligations.EndStopsWithoutTruncation := fun _ hp =>
  ⟨exec_end .endC9 hp rfl, exec_end .endC10 hp rfl, exec_end .endC11 hp rfl, exec_end .endC12 hp rfl⟩

/-- Settles O16: the row applies, its lookup finds the literal's entry, and the effect emits and records it. -/
theorem firstEmitsAndRecords : Obligations.FirstEmitsAndRecords := by
  intro s b hp hw hprev hentry
  have ha : (Instr.firstC9 b).applies (decodeCtx s) = true :=
    Instr.applies_iff.2 ⟨hw, by simp [Instr.cls, rowWhen, decodeCtx, hprev]⟩
  have hlook : lookup s b.toNat = some (ByteSeq.single b) := by
    have hb : b.toNat < 256 := b.isLt
    rw [lookup_eq (by omega) (by omega), hentry]
  rw [exec_of_applies hp ha]
  simp only [classEffect, Instr.cls, Instr.code, doFirst, hlook, emit_eq, ByteSeq.toList_single]
  rfl

/-- Settles O17: the row applies, and its effect is the exception with cause 1. -/
theorem badFirstFaults : Obligations.BadFirstFaults := by
  intro s code hp hw hprev hcode
  have ha : (Instr.badFirstC9 code).applies (decodeCtx s) = true :=
    Instr.applies_iff.2 ⟨hw, by simp [Instr.cls, Instr.code, rowWhen, decodeCtx, hprev, hcode]⟩
  rw [FaultsBy, exec_of_applies hp ha]
  rfl

/-! ### What a step does with the code it reads -/

/-- Settles O30: a code that decodes has a width of 9 to 12, so `GETCODE` answers it and the step carries it out. -/
theorem stepRunsTheDecodedCode : Obligations.StepRunsTheDecodedCode := by
  intro s v i hp hr hl hv hd
  have hwidth : i.width = s.width := (decode_spec hd (assemble_lt hv)).1
  exact step_of_code hp hr (getCode_of_bits (hwidth ▸ i.width_range) hl hv) hd

/-- Settles O31: `GETCODE` answers `EOF`, and the step stops the run. -/
theorem truncatedStreamStops : Obligations.TruncatedStreamStops := by
  intro s hp hr hlow hhigh hl
  obtain ⟨a, hg⟩ := getCodeShortInputIsEof s.width s hlow hhigh hl
  exact ⟨a, step_of_eof hp hr hg⟩

/-! ### A run in progress has a next state -/

/-- R223 (b): while the host keeps its duties `GETCODE` at a width of 9 to 12 answers a code or `EOF`. -/
theorem getCode_total {W : Nat} {s : State} (hs : HostDuty s) (hW : 9 ≤ W ∧ W ≤ 12) :
    (∃ v t, getCode W s = .code v t) ∨ (∃ t, getCode W s = .eof t) := by
  by_cases hl : s.pos + W ≤ 8 * s.len
  · obtain ⟨v, hv⟩ := assemble_isSome.2 fun j (hj : j < W) =>
      (streamBit_of_hostDuty hs (i := s.pos + j) (by omega)).imp fun _ hb => hb.1
    exact .inl ⟨v, _, getCode_of_bits hW hl hv⟩
  · exact .inr ⟨_, getCode_of_short hW (by omega)⟩

/-- R104: the rows of the ordinary codes apply in state HASPREV alone. -/
theorem prev_of_applies {i : Instr} {s : State} (ha : i.applies (decodeCtx s) = true)
    (hc : i.cls = .lit ∨ i.cls = .ref ∨ i.cls = .defer) : ∃ p, s.prev = some p := by
  have hwhen := (Instr.applies_iff.1 ha).2
  refine Option.isSome_iff_exists.1 ?_
  rcases hc with hc | hc | hc <;> simp_all [rowWhen, decodeCtx]

/-- R104, R301: a row that applies in a run in progress answers a next state. -/
theorem exec_total {i : Instr} {s : State} (hp : s.phase = .run) (ha : i.applies (decodeCtx s) = true) :
    ∃ t, exec i s = .next t := by
  have hprev := prev_of_applies ha
  rw [exec_of_applies hp ha]
  cases hc : i.cls with
  | clear | endOfInfo | badFirst | bad => exact ⟨_, rfl⟩
  | first =>
    simp only [classEffect, doFirst]
    cases lookup s i.code <;> exact ⟨_, rfl⟩
  | lit | ref =>
    obtain ⟨p, hprev⟩ := hprev (by simp [hc])
    simp only [classEffect, doPresent, hprev]
    cases lookup s i.code <;> exact ⟨_, rfl⟩
  | defer =>
    obtain ⟨p, hprev⟩ := hprev (by simp [hc])
    simp only [classEffect, doDeferred, hprev]
    exact ⟨_, rfl⟩

/-- R31, R103: the dictionary invariant leaves no code value without a row. -/
theorem DictInv.decode_total {s : State} (hs : DictInv s) (v : Nat) : ∃ i, decode (decodeCtx s) v = .ok i := by
  have hW : 9 ≤ s.width ∧ s.width ≤ 12 := hs.widthOfMaxCode ▸ widthFor_range s.maxCode
  refine Sys2Proof.decode_total v hW fun hheld => ?_
  have hprev : s.prev = none := by simpa [decodeCtx] using hheld
  exact hs.widthOfMaxCode.trans (by rw [hs.noPrevFresh hprev]; rfl)

/-- R301: a run in progress can take a step. -/
theorem step_run_total {s : State} (hd : DictInv s) (hs : HostDuty s) (hp : s.phase = .run) : ∃ t, step s = .next t := by
  have hr := hs.noStartInRun hp
  rcases getCode_total hs (hd.widthOfMaxCode ▸ widthFor_range s.maxCode) with ⟨v, u, hg⟩ | ⟨u, hg⟩
  · obtain ⟨i, hi⟩ := hd.decode_total v
    obtain ⟨-, -, -, hv, rfl⟩ := getCode_code hg
    rw [step_of_code hp hr hg hi]
    exact exec_total hp (decode_applies hi hv)
  · exact ⟨_, step_of_eof hp hr hg⟩

/-! ### Every run ends -/

/-- R38: a step of a run leaves the input, its length and the START line alone. -/
theorem step_run_keeps_input {s t : State} (hp : s.phase = .run) (h : step s = .next t) :
    t.input = s.input ∧ t.len = s.len ∧ t.startReq = s.startReq := by
  rcases step_run_next hp h with ⟨-, rfl⟩ | ⟨v, i, -, hx⟩
  · exact ⟨rfl, rfl, rfl⟩
  · obtain ⟨hi, hl, -, -, hr⟩ := exec_keeps_input_and_cursor hx
    exact ⟨hi, hl, hr⟩

/-- R218: a step of a run stays in it or ends it. -/
theorem step_run_phase {s t : State} (hp : s.phase = .run) (h : step s = .next t) :
    t.phase = .run ∨ t.phase = .done ∨ t.phase = .fault := by
  rcases step_run_next hp h with ⟨-, rfl⟩ | ⟨v, i, -, hx⟩
  · exact .inr (.inl rfl)
  · cases exec_effect hx with
    | reset => exact .inl hp
    | stop => exact .inr (.inl rfl)
    | fault => exact .inr (.inr rfl)
    | record | extend => exact .inl (by simpa [pastCode] using hp)

/-- What holds along a run that the host leaves alone. -/
structure RunInv (s : State) : Prop where
  dict : DictInv s
  duty : HostDuty s
  /-- R217: START has been taken, and is not issued again -/
  noStart : s.startReq = false
  /-- R21 -/
  posInInput : s.pos ≤ 8 * s.len

/-- R217: a run begins with its invariant. -/
theorem runInv_start {s : State} (hs : HostDuty s) : RunInv (start s) :=
  ⟨dictInv_of_reset rfl rfl rfl rfl, ⟨hs.inputPresent, fun _ => rfl⟩, rfl, Nat.zero_le _⟩

/-- R128: every step of a run keeps its invariant and the length of its input, and either ends the run or consumes 9 bits or more. -/
theorem RunInv.step {s : State} (hs : RunInv s) (hp : s.phase = .run) :
    ∃ t, step s = .next t ∧ RunInv t ∧
      ((t.phase = .done ∨ t.phase = .fault) ∨ (t.phase = .run ∧ t.len = s.len ∧ s.pos + 9 ≤ t.pos)) := by
  obtain ⟨hdict, hduty, hstart, hin⟩ := hs
  obtain ⟨t, ht⟩ := step_run_total hdict hduty hp
  obtain ⟨hi, hl, hr⟩ := step_run_keeps_input hp ht
  have hduty' : HostDuty t := ⟨by rw [hi, hl]; exact hduty.inputPresent, fun _ => hr.trans hstart⟩
  have hmoves := cursorOnlyMovesForward s t hp ht
  refine ⟨t, ht, ⟨stepKeepsDictionaryInvariant s t hdict ht, hduty', hr.trans hstart, by omega⟩, ?_⟩
  rcases step_run_phase hp ht with hrun | hended
  · rcases hmoves with ⟨hpos, -, hlow, -⟩ | ⟨-, hdone, -⟩
    · exact .inr ⟨hrun, hl, by omega⟩
    · exact .inl (.inl hdone)
  · exact .inl hended

/-- A run goes on from the state its first step answers. -/
theorem run_succ_of_step {s t : State} (h : step s = .next t) (n : Nat) :
    Host.Core.run Sys2Proof.core (n + 1) s = Host.Core.run Sys2Proof.core n t := by
  have hcore : Sys2Proof.core.step s = .next t := h
  simp only [Host.Core.run, hcore]

/-- R218: outside a run, without START, any number of steps changes nothing. -/
theorem run_of_stable {s : State} (h : step s = .next s) (n : Nat) : Host.Core.run Sys2Proof.core n s = .next s := by
  induction n with
  | zero => rfl
  | succ n ih => rw [run_succ_of_step h, ih]

/-- R218: outside a run, without START, a step changes nothing. -/
theorem step_of_not_run {s : State} (hp : s.phase ≠ .run) (hr : s.startReq = false) : step s = .next s := by
  unfold Machine.step
  rw [hr]
  cases h : s.phase with
  | run => exact absurd h hp
  | idle | done | fault => rfl

/-- R152: a run ends within `n` steps when the bits left are fewer than `9 n`, since every code takes at least 9. -/
theorem RunInv.ends {s : State} (hs : RunInv s) (hp : s.phase = .run) {n : Nat} (hn : 8 * s.len < s.pos + 9 * n) :
    ∃ t, Host.Core.run Sys2Proof.core n s = .next t ∧ (t.phase = .done ∨ t.phase = .fault) := by
  induction n generalizing s with
  | zero => have := hs.posInInput; omega
  | succ n ih =>
    obtain ⟨t, ht, htinv, hended | ⟨hrun, hl, hpos⟩⟩ := hs.step hp
    · have hnot : t.phase ≠ .run := by rcases hended with h | h <;> simp [h]
      exact ⟨t, by rw [run_succ_of_step ht, run_of_stable (step_of_not_run hnot htinv.noStart)], hended⟩
    · rw [run_succ_of_step ht]
      exact ih htinv hrun (by omega)

/-- Settles O51: `9 ((8 LEN) div 9 + 1)` exceeds `8 LEN`. -/
theorem everyRunEnds : Obligations.EveryRunEnds := fun s hs =>
  (runInv_start hs).ends rfl (by rw [start_len, start_pos]; omega)

end Sys2Proof.Machine
end

section
/-!
PROOFS. The 42_dictionary_codes family: what the codes that look up an entry emit, insert and record, when they fault, and how long an
entry can be.
-/

namespace Sys2Proof

/-- R104: a row that applies is well formed: its operand lies in the range its row covers. -/
theorem Instr.wf_of_applies {i : Instr} {ctx : DecodeCtx} (ha : i.applies ctx = true) : i.wf = true := by
  have hwhen := (Instr.applies_iff.1 ha).2
  cases i <;> simp_all [Instr.wf, Instr.cls, Instr.code, rowWhen]

/-- R104: the code of a row that applies is one its class covers. -/
theorem Instr.covers_of_applies {i : Instr} {ctx : DecodeCtx} (ha : i.applies ctx = true) : i.cls.Covers i.code :=
  i.wf_iff.1 (Instr.wf_of_applies ha)

end Sys2Proof

namespace Sys2Proof.Machine

/-! ### Insertion -/

/-- R180: with room in the table the insertion raises `maxCode` by one. -/
theorem insertEntry_maxCode {s : State} (h : s.maxCode ≠ 4095) (e : ByteSeq) :
    (insertEntry e s).maxCode = s.maxCode + 1 := by rw [insertEntry_room h]

/-- R180: with room in the table the next free slot holds the sequence inserted. -/
theorem insertEntry_read_new {s : State} (h : s.maxCode ≠ 4095) (e : ByteSeq) :
    (insertEntry e s).dict.read (s.maxCode + 1) = some e := by
  rw [insertEntry_room h]; exact Dictionary.read_write_same _ _ _

/-- R181: with room in the table the width grows as the slot written asks. -/
theorem insertEntry_width {s : State} (h : s.maxCode ≠ 4095) (e : ByteSeq) :
    (insertEntry e s).width = grownWidth s.width (s.maxCode + 1) := by rw [insertEntry_room h]

/-- R180 to R182: an insertion, by reads. -/
theorem inserted_insertEntry (e : ByteSeq) (s : State) : Inserted e s (insertEntry e s) := by
  refine ⟨fun hfull => ?_, fun hroom => ⟨insertEntry_maxCode hroom e, insertEntry_read_new hroom e,
    fun a ha => insertEntry_read_other e s ha, fun hw hm => ?_, fun hno => ?_⟩⟩
  · rw [insertEntry_full hfull]
    exact ⟨hfull, rfl, fun _ => rfl⟩
  · rw [insertEntry_width hroom]
    exact if_pos ⟨hw, hm⟩
  · rw [insertEntry_width hroom]
    exact if_neg hno

/-- R180: an insertion changes `maxCode`, the width and the dictionary alone. -/
theorem insertEntry_frame (e : ByteSeq) (s : State) :
    insertEntry e s =
      { s with
        maxCode := (insertEntry e s).maxCode
        width := (insertEntry e s).width
        dict := (insertEntry e s).dict } := by
  by_cases hf : s.maxCode = 4095
  · rw [insertEntry_full hf]
  · rw [insertEntry_room hf]

/-- Settles O23: the insertion by reads, and its frame. -/
theorem insertWritesNextFreeSlot : Obligations.InsertWritesNextFreeSlot := fun s e =>
  ⟨inserted_insertEntry e s, insertEntry_frame e s⟩

/-! ### The lookup -/

/-- R175, R185: a row that looks its code up never asks for a reserved slot. -/
theorem lookup_of_applies {i : Instr} {s : State} (ha : i.applies (decodeCtx s) = true)
    (hc : i.cls = .first ∨ i.cls = .lit ∨ i.cls = .ref) : lookup s i.code = s.dict.read i.code := by
  have hcov := Instr.covers_of_applies ha
  have hdata : i.code < 256 ∨ 258 ≤ i.code := by
    rcases hc with hc | hc | hc <;> rw [hc] at hcov
    · exact .inl hcov
    · exact .inl hcov
    · exact .inr hcov
  exact lookup_eq (by omega) (by omega)

/-- R104: the code of a `REF` that applies is at or below `maxCode`. -/
theorem code_le_maxCode_of_ref {i : Instr} {s : State} (ha : i.applies (decodeCtx s) = true) (hc : i.cls = .ref) :
    i.code ≤ s.maxCode := by
  have hwhen := (Instr.applies_iff.1 ha).2
  simp only [hc, rowWhen, decodeCtx, Bool.and_eq_true] at hwhen
  exact of_decide_eq_true hwhen.2

/-- R27, R29, R175: under the dictionary invariant a row that looks its code up finds an entry. -/
theorem DictInv.lookup_ne_none {i : Instr} {s : State} (hs : DictInv s) (ha : i.applies (decodeCtx s) = true)
    (hc : i.cls = .first ∨ i.cls = .lit ∨ i.cls = .ref) : lookup s i.code ≠ none := by
  have hcov := Instr.covers_of_applies ha
  rw [lookup_of_applies ha hc]
  rcases hc with hc | hc | hc <;> rw [hc] at hcov
  · simp [hs.literals _ hcov]
  · simp [hs.literals _ hcov]
  · obtain ⟨-, e, b, -, -, hread⟩ := hs.dynamic i.code hcov (code_le_maxCode_of_ref ha hc)
    simp [hread]

/-! ### The guard's cause 3 (R175, R242) -/

/-- R175: a code carried out under the dictionary invariant does not raise cause 3. -/
theorem exec_fcause_ne_reserved {i : Instr} {s t : State} (hs : DictInv s) (hf : s.fcause ≠ .reserved)
    (h : exec i s = .next t) : t.fcause ≠ .reserved := by
  rcases exec_cases h with ⟨-, rfl⟩ | ⟨-, rfl⟩ | ⟨-, rfl⟩ | ⟨-, rfl⟩ | ⟨hc, hnone, -⟩ | ⟨-, e, -, rfl⟩ |
    ⟨-, p, e, -, -, rfl⟩ | ⟨-, p, -, rfl⟩
  · exact hf
  · exact hf
  · simp
  · simp
  · obtain ⟨-, ha, -⟩ := exec_next h
    exact absurd hnone (hs.lookup_ne_none ha hc)
  · simpa using hf
  · simpa using hf
  · simpa using hf

/-- Settles O49: reading a code keeps the dictionary invariant, under which no lookup fails. -/
theorem reservedCauseIsUnreachable : Obligations.ReservedCauseIsUnreachable := by
  intro s t hs hp hf h
  rcases step_run_next hp h with ⟨-, rfl⟩ | ⟨v, i, -, hx⟩
  · exact hf
  · have hpast : DictInv (pastCode s) := hs.congr rfl rfl rfl rfl
    exact exec_fcause_ne_reserved hpast hf hx

/-- R243, R252: an instruction that raises the exception faults with that record, and changes nothing else. -/
theorem faultsBy_of_raise {i : Instr} {s : State} {cause : Cause} {code at_ : Nat}
    (h : exec i s = .next (raise cause code at_ s)) : FaultsBy i s cause code at_ := h

/-- Settles O22: the row applies, its lookup reads the empty slot, and the guard answers. -/
theorem emptySlotRaisesReserved : Obligations.EmptySlotRaisesReserved := by
  intro s i hp ha hc hread
  have hnone : lookup s i.code = none := (lookup_of_applies ha hc).trans hread
  refine faultsBy_of_raise ((exec_of_applies hp ha).trans ?_)
  rcases hc with hc | hc
  · simp only [hc, classEffect, doFirst, hnone, codeStart]
  · obtain ⟨p, hprev⟩ := prev_of_applies ha (hc.imp_right .inl)
    rcases hc with hc | hc <;> simp only [hc, classEffect, doPresent, hprev, hnone, codeStart]

/-! ### Emitting, inserting and recording -/

/-- R171 to R173: the three operations together, by reads and with their frame. -/
theorem emitsAndInserts_of_exec {i : Instr} {s : State} {e ins : ByteSeq}
    (h : exec i s = .next (setPrev e (insertEntry ins (emit e.toList s)))) : EmitsAndInserts i s e ins := by
  rw [emit_eq] at h
  exact ⟨_, h, inserted_insertEntry ins { s with out := s.out ++ e.toList, outCount := s.outCount + e.toList.length },
    congrArg (setPrev e) (insertEntry_frame ins _)⟩

/-- R171, R172: an ordinary code that finds the entry `e` emits and records it, and inserts the previous sequence extended by its first
byte. -/
theorem emitsAndInserts_of_present {i : Instr} {s : State} {p e : ByteSeq} (hp : s.phase = .run) (hprev : s.prev = some p)
    (ha : i.applies (decodeCtx s) = true) (hc : i.cls = .lit ∨ i.cls = .ref) (hread : s.dict.read i.code = some e) :
    EmitsAndInserts i s e (p.snoc e.first) := by
  have hlook : lookup s i.code = some e := (lookup_of_applies ha (.inr hc)).trans hread
  apply emitsAndInserts_of_exec
  rw [exec_of_applies hp ha]
  rcases hc with hc | hc <;> simp only [hc, classEffect, doPresent, hprev, hlook]

/-- R171: `LIT`, read at the width in force. -/
theorem emitsAndInserts_of_lit (i : Instr) {s : State} {p e : ByteSeq} (hp : s.phase = .run) (hprev : s.prev = some p)
    (hc : i.cls = .lit) (hread : s.dict.read i.code = some e) (hw : s.width = i.width) :
    EmitsAndInserts i s e (p.snoc e.first) :=
  emitsAndInserts_of_present hp hprev (Instr.applies_iff.2 ⟨hw, by simp [hc, rowWhen, decodeCtx, hprev]⟩) (.inl hc) hread

/-- R172: `REF`, read at the width in force. -/
theorem emitsAndInserts_of_ref (i : Instr) {s : State} {p e : ByteSeq} (hp : s.phase = .run) (hprev : s.prev = some p)
    (hc : i.cls = .ref) (hw : s.width = i.width) (hlow : 258 ≤ i.code) (hhigh : i.code ≤ s.maxCode)
    (hread : s.dict.read i.code = some e) : EmitsAndInserts i s e (p.snoc e.first) :=
  emitsAndInserts_of_present hp hprev
    (Instr.applies_iff.2 ⟨hw, by simp [hc, rowWhen, decodeCtx, hprev, hlow, hhigh]⟩) (.inr hc) hread

/-- R173: `DEFER`, read at the width in force. -/
theorem emitsAndInserts_of_defer (i : Instr) {s : State} {p : ByteSeq} (hp : s.phase = .run) (hprev : s.prev = some p)
    (hmax : 257 ≤ s.maxCode) (hc : i.cls = .defer) (hw : s.width = i.width) (hcode : i.code = s.maxCode + 1) :
    EmitsAndInserts i s (p.snoc p.first) (p.snoc p.first) := by
  have ha : i.applies (decodeCtx s) = true :=
    Instr.applies_iff.2 ⟨hw, by simp [hc, rowWhen, decodeCtx, hprev, hcode, hmax]⟩
  apply emitsAndInserts_of_exec
  rw [exec_of_applies hp ha]
  simp only [hc, classEffect, doDeferred, hprev]

/-- Settles O18: each of the four rows is of class `LIT`, and the entry it finds is its own byte. -/
theorem litEmitsInsertsRecords : Obligations.LitEmitsInsertsRecords := fun _ b _ hp hprev hentry =>
  ⟨emitsAndInserts_of_lit (.litC9 b) hp hprev rfl hentry, emitsAndInserts_of_lit (.litC10 b) hp hprev rfl hentry,
    emitsAndInserts_of_lit (.litC11 b) hp hprev rfl hentry, emitsAndInserts_of_lit (.litC12 b) hp hprev rfl hentry⟩

/-- Settles O19: each of the four rows is of class `REF`. -/
theorem refEmitsInsertsRecords : Obligations.RefEmitsInsertsRecords := fun _ _ _ hp hprev =>
  ⟨fun c => emitsAndInserts_of_ref (.refC9 c) hp hprev rfl, fun c => emitsAndInserts_of_ref (.refC10 c) hp hprev rfl,
    fun c => emitsAndInserts_of_ref (.refC11 c) hp hprev rfl, fun c => emitsAndInserts_of_ref (.refC12 c) hp hprev rfl⟩

/-- Settles O20: each of the four rows is of class `DEFER`. -/
theorem deferEmitsInsertsRecords : Obligations.DeferEmitsInsertsRecords := fun _ _ hp hprev hmax =>
  ⟨fun c => emitsAndInserts_of_defer (.deferC9 c) hp hprev hmax rfl,
    fun c => emitsAndInserts_of_defer (.deferC10 c) hp hprev hmax rfl,
    fun c => emitsAndInserts_of_defer (.deferC11 c) hp hprev hmax rfl,
    fun c => emitsAndInserts_of_defer (.deferC12 c) hp hprev hmax rfl⟩

/-! ### A code out of range -/

/-- R174, R241: `BAD`, read at the width in force, raises the exception with cause 2. -/
theorem faultsBy_of_bad (i : Instr) {s : State} (hp : s.phase = .run) (hprev : s.prev ≠ none) (hmax : 257 ≤ s.maxCode)
    (hc : i.cls = .bad) (hw : s.width = i.width) (hcode : s.maxCode + 1 < i.code) :
    FaultsBy i s .outOfRange i.code (s.pos - i.width) := by
  have ha : i.applies (decodeCtx s) = true := by
    have hlow : 258 ≤ i.code := by omega
    exact Instr.applies_iff.2 ⟨hw, by simp [hc, rowWhen, decodeCtx, Option.isSome_iff_ne_none, hprev, hlow, hcode]⟩
  exact faultsBy_of_raise (by rw [exec_of_applies hp ha, hc]; rfl)

/-- Settles O21: each of the four rows is of class `BAD`. -/
theorem badFaults : Obligations.BadFaults := fun _ hp hprev hmax =>
  ⟨fun c => faultsBy_of_bad (.badC9 c) hp hprev hmax rfl, fun c => faultsBy_of_bad (.badC10 c) hp hprev hmax rfl,
    fun c => faultsBy_of_bad (.badC11 c) hp hprev hmax rfl, fun c => faultsBy_of_bad (.badC12 c) hp hprev hmax rfl⟩

/-! ### Entry lengths (R186) -/

/-- R27: the entry of a code below 256 is one byte long. -/
theorem DictInv.literal_length {s : State} (hs : DictInv s) {c : Nat} {e : ByteSeq} (hc : c < 256)
    (h : s.dict.read c = some e) : e.length = 1 := by
  obtain rfl : ByteSeq.single (BitVec.ofNat 8 c) = e := by simpa [hs.literals c hc] using h
  exact ByteSeq.length_single _

/-- R28: no entry stands at a reserved code. -/
theorem DictInv.entry_code {s : State} (hs : DictInv s) {c : Nat} {e : ByteSeq} (h : s.dict.read c = some e) :
    c < 256 ∨ 258 ≤ c := by
  have hclear : c ≠ 256 := by rintro rfl; simp [hs.reservedClear] at h
  have hend : c ≠ 257 := by rintro rfl; simp [hs.reservedEnd] at h
  omega

/-- R42, R186: a dynamic entry is an older one plus one byte, so its length is bounded by induction on its code. -/
theorem DictInv.dynamic_length {s : State} (hs : DictInv s) {c : Nat} {e : ByteSeq} (hc : 258 ≤ c)
    (h : s.dict.read c = some e) : 2 ≤ e.length ∧ e.length ≤ c - 256 := by
  induction c using Nat.strong_induction_on generalizing e with
  | _ c ih =>
    obtain ⟨j, older, b, hj, hread, hnew⟩ := hs.dynamic c hc (hs.le_maxCode h)
    obtain rfl : older.snoc b = e := by simpa [hnew] using h
    rw [ByteSeq.length_snoc]
    rcases hs.entry_code hread with hlit | hdyn
    · have := hs.literal_length hlit hread
      omega
    · have := ih j hj hdyn hread
      omega

/-- R41, R186: the previous sequence is an entry at or below 4095. -/
theorem DictInv.prev_length {s : State} (hs : DictInv s) {p : ByteSeq} (hp : s.prev = some p) :
    1 ≤ p.length ∧ p.length ≤ 3839 := by
  obtain ⟨c, hc, hread⟩ := hs.prevIsEntry p hp
  have hhigh := hs.maxCodeHigh
  rcases hs.entry_code hread with hlit | hdyn
  · have := hs.literal_length hlit hread
    omega
  · have := hs.dynamic_length hdyn hread
    omega

/-- Settles O36: the bounds for literals, for dynamic entries and for the previous sequence. -/
theorem entryLengthsAreBounded : Obligations.EntryLengthsAreBounded := fun _ hs =>
  ⟨fun _ _ => hs.literal_length, fun _ _ => hs.dynamic_length, fun _ => hs.prev_length⟩

end Sys2Proof.Machine
end

section
/-!
PROOFS. The 43_emission_output_stage family: what a step of a run appends to the output, and how much.
-/

namespace Sys2Proof.Machine

/-- R171 to R173, R202: `t` has `bs` appended to the output of `s`: nothing, or the bytes of the sequence that `t` records in `prev`. -/
structure Appends (bs : List Byte) (s t : State) : Prop where
  out : t.out = s.out ++ bs
  count : t.outCount = s.outCount + bs.length
  source : bs = [] ∨ ∃ e, t.prev = some e ∧ bs = e.toList

/-- A state with the output and the count of `s` has nothing appended. -/
theorem Appends.nil {s t : State} (ho : t.out = s.out) (hc : t.outCount = s.outCount) : Appends [] s t :=
  ⟨by simpa using ho, hc, .inl rfl⟩

/-- R202: a code appends nothing, or the entry it emits and records. -/
theorem exec_appends {i : Instr} {s t : State} (h : exec i s = .next t) : ∃ bs, Appends bs s t := by
  cases exec_effect h with
  | reset | stop | fault => exact ⟨[], .nil rfl rfl⟩
  | record e => exact ⟨e.toList, by simp, by simp, .inr ⟨e, rfl, rfl⟩⟩
  | extend _ e => exact ⟨e.toList, by simp, by simp, .inr ⟨e, rfl, rfl⟩⟩

/-- R149, R202: the end of the input appends nothing, and a code is carried out on the output as it stands. -/
theorem step_run_appends {s t : State} (hp : s.phase = .run) (h : step s = .next t) : ∃ bs, Appends bs s t := by
  rcases step_run_next hp h with ⟨-, rfl⟩ | ⟨v, i, -, hx⟩
  · exact ⟨[], .nil rfl rfl⟩
  · obtain ⟨bs, hout, hcount, hsource⟩ := exec_appends hx
    exact ⟨bs, hout, hcount, hsource⟩

/-- R186, R204: what is appended is at most as long as a previous sequence can be. -/
theorem Appends.length_le {bs : List Byte} {s t : State} (h : Appends bs s t) (ht : DictInv t) : bs.length ≤ 3839 := by
  rcases h.source with rfl | ⟨e, hprev, rfl⟩
  · exact Nat.zero_le _
  · rw [ByteSeq.length_toList]
    exact (ht.prev_length hprev).2

/-- Settles O34: a step of a run appends to the output and counts what it appends. -/
theorem outputIsOnlyExtended : Obligations.OutputIsOnlyExtended := by
  intro s t hp h
  obtain ⟨bs, hout, hcount, -⟩ := step_run_appends hp h
  exact ⟨bs, hout, hcount⟩

/-- Settles O35: the step keeps the dictionary invariant, which bounds the sequence it has emitted and recorded. -/
theorem bytesPerStep : Obligations.BytesPerStep := by
  intro s t hs hp h
  obtain ⟨bs, happ⟩ := step_run_appends hp h
  have hbound : bs.length ≤ 3839 := happ.length_le (stepKeepsDictionaryInvariant s t hs h)
  rw [happ.out, List.length_append]
  omega

end Sys2Proof.Machine
end

section
/-!
PROOFS. The 44_host_interface family: the phases and START, what the host prepares and then sees, and that `decode` is total.
-/

namespace Sys2Proof.Machine

/-! ### START and the phases -/

/-- R217: outside a run a START issued is taken by the step. -/
theorem step_of_start {s : State} (hp : s.phase ≠ .run) (hr : s.startReq = true) : step s = .next (start s) := by
  unfold step
  rw [hr]
  cases h : s.phase with
  | run => exact absurd h hp
  | idle | done | fault => rfl

/-- R219: START during a run has no step. -/
theorem step_of_start_in_run {s : State} (hp : s.phase = .run) (hr : s.startReq = true) :
    step s = .refused .startDuringRun := by
  unfold step; rw [hp, hr]

/-- Settles O39: the step takes START, and the dictionary it leaves holds the literal entries alone. -/
theorem startSetsDecodeStartValues : Obligations.StartSetsDecodeStartValues := by
  intro s hp hr
  refine ⟨start s, step_of_start hp hr, rfl, fun c hc => ?_, fun c hc => ?_⟩
  · rw [start_dict, literalEntries_read, if_pos hc]
  · rw [start_dict, literalEntries_read, if_neg (by omega)]

/-- Settles O40: outside a run nothing happens without START, and in a run START is refused. -/
theorem phasesAreStableUntilStart : Obligations.PhasesAreStableUntilStart := fun _ =>
  ⟨step_of_not_run, step_of_start_in_run⟩

/-- Settles O41: a step takes START, does nothing, or is a step of a run, which stays in the run or ends it. -/
theorem phaseTransitions : Obligations.PhaseTransitions := by
  intro s t h
  rcases step_cases h with ⟨hp, hr, rfl⟩ | ⟨-, -, rfl⟩ | ⟨hp, -, -⟩
  · exact .inr (.inl ⟨hp, hr, rfl⟩)
  · exact .inl rfl
  · rcases step_run_phase hp h with hrun | hended
    · exact .inl (hrun.trans hp.symm)
    · exact .inr (.inr ⟨hp, hended⟩)

/-! ### Preparing an input and issuing START -/

/-- R226: the state with `bytes` placed as its input. -/
def State.prepared (bytes : List Byte) (s : State) : State :=
  { s with input := Memory.ofBytesFrom 0 bytes, len := bytes.length }

@[simp] theorem prepared_input (bytes : List Byte) (s : State) :
    (s.prepared bytes).input = Memory.ofBytesFrom 0 bytes := rfl

/-- R226: outside a run, START not issued, the host can prepare an input. -/
theorem hostPrepare_of_ready {s : State} (hp : s.phase ≠ .run) (hr : s.startReq = false) (bytes : List Byte) :
    hostPrepare bytes s = .next (s.prepared bytes) := if_neg (by simp [hp, hr])

/-- R217: outside a run, START not issued, the host can issue it. -/
theorem hostStart_of_ready {s : State} (hp : s.phase ≠ .run) (hr : s.startReq = false) :
    hostStart s = .next { s with startReq := true } := if_neg (by simp [hp, hr])

/-- R61: the buffer holds the bytes prepared, from position 0 on. -/
theorem prepared_read (bytes : List Byte) (s : State) (k : Nat) : (s.prepared bytes).input.read k = bytes[k]? := by
  simpa using Memory.read_ofBytesFrom 0 bytes k

/-- R16, R226: `MemRead` answers the bytes prepared, and nothing beyond them. -/
theorem memRead_prepared (bytes : List Byte) (s : State) (k : Nat) : memRead (s.prepared bytes) k = bytes[k]? := by
  have hmore : hasMore (s.prepared bytes) k = decide (k < bytes.length) := rfl
  rw [memRead, hmore, prepared_read]
  by_cases hk : k < bytes.length
  · simp only [hk, decide_true, if_true]
  · simp [hk]

/-- R223: preparing an input outside a run is what the host's duty asks. -/
theorem hostDuty_prepared {s : State} (hp : s.phase ≠ .run) (bytes : List Byte) : HostDuty (s.prepared bytes) where
  inputPresent k (hk : k < bytes.length) := by
    rw [prepared_read, List.getElem?_eq_getElem hk]
    exact Option.some_ne_none _
  noStartInRun hrun := absurd hrun hp

/-- R216, R226: while the host sees phase `RUN` there is no result. -/
theorem hostResult_of_run {s : State} (h : (hostView s).phase = .run) : hostResult s = none := by
  simp only [hostResult, h]

/-- Settles O43: in turn what preparing, issuing START and the step that takes it answer; `host_refused` gives every refusal. -/
theorem hostPreparesAndStarts : Obligations.HostPreparesAndStarts := by
  refine fun s bytes => ⟨fun hp hr => ?_, fun h => host_refused h bytes⟩
  let t := s.prepared bytes
  let u := { t with startReq := true }
  have hstep : step u = .next (start t) := step_of_start (s := u) hp rfl
  obtain ⟨-, -, -, hwaiting, -⟩ := statusRegisterLayout u
  obtain ⟨n, hread, hphase, -⟩ := hwaiting rfl
  exact ⟨t, hostPrepare_of_ready hp hr bytes, rfl, memRead_prepared bytes s, u, hostStart_of_ready (s := t) hp hr, hstep,
    ⟨n, hread, hphase⟩, hostResult_of_run (hostView_phase_of_startReq rfl),
    hostRead_congr (hostView_step_start (s := u) hp rfl hstep).symm, host_refused (.inr rfl)⟩

/-! ### `decode` as a function -/

/-- What every step keeps is kept along a run. -/
theorem run_keeps {P : State → Prop} (hstep : ∀ s t, P s → step s = .next t → P t) {n : Nat} {s t : State} (hs : P s)
    (h : Host.Core.run Sys2Proof.core n s = .next t) : P t := by
  induction n generalizing s with
  | zero => cases h; exact hs
  | succ n ih =>
    cases hx : Sys2Proof.core.step s with
    | next u => exact ih (hstep s u hs hx) (by rwa [run_succ_of_step hx] at h)
    | fault | refused => simp [Host.Core.run, hx] at h

/-- What makes the state after a run an answer of `decode`: the dictionary invariant keeps cause 3 away, the status invariant gives a
fault its cause, and no new START hides the result. -/
structure AnswerInv (s : State) : Prop where
  dict : DictInv s
  status : StatusInv s
  notReserved : s.fcause ≠ .reserved
  noStart : s.startReq = false

/-- R40: the invariant holds at decode start. -/
theorem answerInv_start (s : State) : AnswerInv (start s) where
  dict := dictInv_of_reset rfl rfl rfl rfl
  status := (statusInv_of_run rfl).2 ⟨rfl, rfl, rfl, rfl, rfl⟩
  notReserved := by simp
  noStart := rfl

/-- R175, R218: every step keeps the invariant. -/
theorem AnswerInv.step {s t : State} (hs : AnswerInv s) (h : step s = .next t) : AnswerInv t := by
  rcases step_cases h with ⟨-, -, rfl⟩ | ⟨-, -, rfl⟩ | ⟨hp, hr, -⟩
  · exact answerInv_start s
  · exact hs
  · exact ⟨stepKeepsDictionaryInvariant s t hs.dict h, stepKeepsStatusInvariant s t hs.status h,
      reservedCauseIsUnreachable s t hs.dict hp hs.notReserved h, (step_run_keeps_input hp h).2.2.trans hr⟩

/-- R216: the result of a run that has ended is the bytes and the flag, or the error with cause 1 or 2. -/
theorem AnswerInv.hostResult_ended {s : State} (hs : AnswerInv s) (hp : s.phase = .done ∨ s.phase = .fault) :
    (∃ out trunc, hostResult s = some (.ok out trunc)) ∨
    (∃ cause code at_ out, hostResult s = some (.error cause code at_ out) ∧
      (cause = .afterReset ∨ cause = .outOfRange)) := by
  have hview : hostView s = s := hostView_idle hs.noStart
  rcases hp with hp | hp
  · exact .inl ⟨s.out, s.trunc, by simp only [hostResult, hview, hp]⟩
  · refine .inr ⟨s.fcause, s.fcode, s.fpos, s.out, by simp only [hostResult, hview, hp], ?_⟩
    have hraised : s.fcause ≠ .noFault := hs.status.causeOnFault.2 hp
    have hguard := hs.notReserved
    cases hc : s.fcause with
    | noFault => exact absurd hc hraised
    | reserved => exact absurd hc hguard
    | afterReset => exact .inl rfl
    | outOfRange => exact .inr rfl

/-- R216: `decode` answers the result of the run over the bytes prepared at power-up. -/
theorem decodeStream_of_run {bytes : List Byte} {t : State}
    (h : Host.Core.run Sys2Proof.core (8 * bytes.length / 9 + 1) (start (State.reset.prepared bytes)) = .next t) :
    decodeStream bytes = hostResult t := by
  have hprep : hostPrepare bytes State.reset = .next (State.reset.prepared bytes) :=
    hostPrepare_of_ready (by decide) rfl bytes
  simp only [decodeStream, hprep, h]

/-- Settles O52: the run over the bytes prepared ends within its bound (`everyRunEnds`), and keeps `AnswerInv` from decode start on. -/
theorem decodeIsTotal : Obligations.DecodeIsTotal := by
  intro bytes
  have hduty : HostDuty (State.reset.prepared bytes) := hostDuty_prepared (by decide) bytes
  obtain ⟨t, hrun, hended⟩ := everyRunEnds _ hduty
  have hanswer : AnswerInv t := run_keeps (fun _ _ hs => hs.step) (answerInv_start _) hrun
  rw [decodeStream_of_run hrun]
  exact hanswer.hostResult_ended hended

end Sys2Proof.Machine
end

section
/-!
PROOFS. The 60_exceptions family: what a code that faults leaves unchanged, and what it records.
-/

namespace Sys2Proof.Machine

/-- R38, R252: a code that ends in phase `FAULT` has raised the exception: a code starts in phase `RUN`, and no other effect leads from
there to `FAULT`. -/
theorem exec_eq_raise_of_fault {i : Instr} {s t : State} (h : exec i s = .next t) (hf : t.phase = .fault) :
    ∃ cause, cause ≠ .noFault ∧ t = raise cause i.code (codeStart i s) s := by
  obtain ⟨hrun, -, -⟩ := exec_next h
  cases exec_effect h with
  | fault cause hne => exact ⟨cause, hne, rfl⟩
  | stop => simp at hf
  | reset | record | extend => simp [hrun] at hf

/-- Settles O29: the exception writes the phase and the record alone, and records the code and where it began. -/
theorem faultsArePrecise : Obligations.FaultsArePrecise := by
  intro i s t h hf
  obtain ⟨cause, hne, rfl⟩ := exec_eq_raise_of_fault h hf
  exact ⟨rfl, hne, rfl, rfl⟩

end Sys2Proof.Machine
end

section
/-!
PROOFS. The 70_reset_and_hazards family: every step can be taken, and the entry a code has just inserted is there for the next code.
-/

namespace Sys2Proof.Machine

/-! ### Progress -/

/-- Settles O50: in a run the step reads a code or meets the end of the input; outside it the step takes START or does nothing. -/
theorem everyStepCanBeTaken : Obligations.EveryStepCanBeTaken := by
  intro s hdict hduty
  by_cases hp : s.phase = .run
  · exact step_run_total hdict hduty hp
  · cases hr : s.startReq with
    | true => exact ⟨start s, step_of_start hp hr⟩
    | false => exact ⟨s, step_of_not_run hp hr⟩

/-! ### The entry just inserted -/

/-- R104: the code of a `DEFER` that applies is the next free slot. -/
theorem code_eq_of_defer {i : Instr} {s : State} (ha : i.applies (decodeCtx s) = true) (hc : i.cls = .defer) :
    i.code = s.maxCode + 1 := by
  have hwhen := (Instr.applies_iff.1 ha).2
  simp only [hc, rowWhen, decodeCtx, Bool.and_eq_true] at hwhen
  exact of_decide_eq_true hwhen.2

/-- R171 to R173, R175: under the dictionary invariant no `LIT`, `REF` or `DEFER` that applies meets the guard, so each emits and
inserts. -/
theorem DictInv.emitsAndInserts {i : Instr} {s : State} (hs : DictInv s) (hp : s.phase = .run)
    (ha : i.applies (decodeCtx s) = true) (hc : i.cls = .lit ∨ i.cls = .ref ∨ i.cls = .defer) :
    ∃ e ins, EmitsAndInserts i s e ins := by
  obtain ⟨p, hprev⟩ := prev_of_applies ha hc
  rcases or_assoc.2 hc with hpresent | hdefer
  · obtain ⟨e, he⟩ := Option.ne_none_iff_exists'.1 (hs.lookup_ne_none ha (.inr hpresent))
    exact ⟨e, _, emitsAndInserts_of_present hp hprev ha hpresent (lookup_some he)⟩
  · have hwidth := (Instr.applies_iff.1 ha).1
    exact ⟨_, _, emitsAndInserts_of_defer i hp hprev hs.maxCodeLow hdefer hwidth (code_eq_of_defer ha hdefer)⟩

/-- R180: under the dictionary invariant, with room in the table, a `LIT`, `REF` or `DEFER` raises `maxCode` by one. -/
theorem DictInv.exec_maxCode {i : Instr} {s t : State} (hs : DictInv s) (hroom : s.maxCode ≠ 4095)
    (hc : i.cls = .lit ∨ i.cls = .ref ∨ i.cls = .defer) (h : exec i s = .next t) : t.maxCode = s.maxCode + 1 := by
  obtain ⟨hp, ha, -⟩ := exec_next h
  obtain ⟨e, ins, u, hu, hins, -⟩ := hs.emitsAndInserts hp ha hc
  obtain rfl : u = t := by simpa [hu] using h
  exact (hins.2 hroom).1

/-- R31: `maxCode` fits the field of the width that belongs to it. -/
theorem lt_two_pow_widthFor {m : Nat} (h : m ≤ 4095) : m < 2 ^ widthFor m := by
  unfold widthFor; split_ifs <;> omega

/-- R29, R96: once a dynamic entry is there, the newest one's code decodes to a `REF`, and its lookup finds the entry. -/
theorem DictInv.newest_is_ref {s : State} (hs : DictInv s) (hm : 258 ≤ s.maxCode) :
    ∃ j, decode (decodeCtx s) s.maxCode = .ok j ∧ j.cls = .ref ∧ ∃ e, lookup s s.maxCode = some e := by
  have hheld : (decodeCtx s).held = true :=
    Option.isSome_iff_ne_none.2 fun hnone => by have := hs.noPrevFresh hnone; omega
  have hfits : s.maxCode < 2 ^ s.width := by rw [hs.widthOfMaxCode]; exact lt_two_pow_widthFor hs.maxCodeHigh
  obtain ⟨-, -, -, href, -⟩ := heldClass_classOf hheld s.maxCode
  obtain ⟨j, hj⟩ := hs.decode_total s.maxCode
  obtain ⟨-, hcode, hcls⟩ := decode_spec hj hfits
  have hjref : j.cls = .ref := hcls.trans (href hm le_rfl)
  have hlook := hs.lookup_ne_none (decode_applies hj hfits) (.inr (.inr hjref))
  exact ⟨j, hj, hjref, Option.ne_none_iff_exists'.1 (hcode ▸ hlook)⟩

/-- Settles O38: the code keeps the dictionary invariant and raises `maxCode`, so the newest entry of the next state is dynamic. -/
theorem newEntryIsVisibleToTheNextCode : Obligations.NewEntryIsVisibleToTheNextCode := by
  intro i s t hs hroom hc h
  have hmax : t.maxCode = s.maxCode + 1 := hs.exec_maxCode hroom.ne hc h
  have hlow := hs.maxCodeLow
  obtain ⟨j, hj, hcls, hlook⟩ := (exec_keeps_dictInv hs h).newest_is_ref (by omega)
  exact ⟨j, hj, hcls, hmax, hlook⟩

end Sys2Proof.Machine
end
